-- ==== Sys2Proof/Word.lean ====
section
/-! DEFINITION. The value types of the block: unsigned numbers of a fixed width (00_scope.md R5, R8; 40_wideint.md R57). -/

namespace Sys2Proof

/-- A `u128`: a price, a liquidity, an operand of the multiplier, the `result` port (R5 `NW`, `LW`; R13, R14). -/
abbrev Native := BitVec 128

/-- A `u256`: a WideValue (R5 `W`, R57). -/
abbrev Wide := BitVec 256

/-- A `u64`: a token amount (R5 `AW`, R7 `AIW`). -/
abbrev Amount := BitVec 64

end Sys2Proof
end

