-- ==== Sys2Proof/Config.lean ====
section
/-! DEFINITION. The fixed parameters of the block and the constant derived from them (00_scope.md R5 to R7; 10_state.md R15; 70_reset_and_hazards.md R130). -/

namespace Sys2Proof.Config

/-- `W`: the width of a WideValue (R5). -/
abbrev W : Nat := 256

/-- `NW`: the native width (R5). -/
abbrev NW : Nat := 128

/-- `K`: the scale exponent (R5). The shifter's amount and the threshold are both taken from it (R130). -/
abbrev K : Nat := 64

/-- `AW`: the width of a token amount result (R5). -/
abbrev AW : Nat := 64

/-- `LW`: the width of a liquidity result (R5). -/
abbrev LW : Nat := 128

/-- `AIW`: the width of the `amount` port (R7, decision D6). -/
abbrev AIW : Nat := 64

/-- `B_SHIFT`: the scale of `DELTA_B` and `LIQ_B` (R7, R87). D0 leaves the scale open; the value is the
spec's decision D7. Every claim about the two commands names this parameter.
UNVERIFIED of the real protocol, unsafe: log entry 8. -/
def bShift : Nat := 64

/-- `SCALE_LIMIT = 1 << (W - K)`, the capacity of `CSHL` (R6, R15): derived, never a literal (R130). -/
def scaleLimit : Wide := BitVec.ofNat 256 (1 <<< (W - K))

/-- The factor `2^64` that `LIQ_A` puts on its denominator with `FMUL` (R88, R90). -/
def scaleFactor : Native := BitVec.ofNat 128 (2 ^ K)

/-- `2^B_SHIFT` as the multiplier's operand in `LIQ_B` (R92). -/
def bFactor : Native := BitVec.ofNat 128 (2 ^ bShift)

/-- `2^B_SHIFT` as the divider's denominator in `DELTA_B` (R85). -/
def bDivisor : Wide := BitVec.ofNat 256 (2 ^ bShift)

end Sys2Proof.Config
end

