-- ==== Sys2Proof/Syntax.lean ====
section
/-! DEFINITION. Commands, micro-operations, command records and responses as data (30_encoding.md; 10_state.md R13, R14). -/

namespace Sys2Proof

/-- D0's RoundingMode (30_encoding.md R32): `Down` truncates toward zero, `Up` is the ceiling. -/
inductive RoundingMode
  | down
  | up
  deriving DecidableEq, Repr

/-- The two widths a value is narrowed to, R7's `RDIV_OW`, selected by `w` (40_wideint.md R55, 43_rounding_divide.md R70). -/
inductive OutWidth
  | w64
  | w128
  deriving DecidableEq, Repr

/-- The number of bits an output width selects. -/
abbrev OutWidth.bits : OutWidth → Nat
  | .w64 => 64
  | .w128 => 128

/-- One constructor per row of spec/opcode_table.json. A command carries the operands its record carries, less
the port it does not read (R13, R33, 93 U9). A micro-operation carries the bits of its label that it reads (R40);
its operands are on its unit's operand wires. Every operand has its port's width by its type (R22). -/
inductive Instr
  /-- `DELTA_A p0, p1, liq, round_up` (R81). -/
  | deltaA (m : RoundingMode) (p0 p1 liq : Native)
  /-- `DELTA_B p0, p1, liq, round_up` (R85). -/
  | deltaB (m : RoundingMode) (p0 p1 liq : Native)
  /-- `LIQ_A p0, p1, amount, round_up` (R88). -/
  | liqA (m : RoundingMode) (p0 p1 : Native) (amount : Amount)
  /-- `LIQ_B p0, p1, amount, round_up` (R92). -/
  | liqB (m : RoundingMode) (p0 p1 : Native) (amount : Amount)
  /-- `ABSD` (R50). -/
  | absd
  /-- `FMUL` (R60). -/
  | fmul
  /-- `CSHL` (R66). -/
  | cshl
  /-- `RDIV` with its mode and output width (R71). -/
  | rdiv (m : RoundingMode) (w : OutWidth)
  /-- `WADD` (R51). -/
  | wadd
  /-- `WSUB` (R52). -/
  | wsub
  /-- `WCMP` (R53). -/
  | wcmp
  /-- `WSHL` (R54). -/
  | wshl
  /-- `WNAR` with its output width (R55). -/
  | wnar (w : OutWidth)
  /-- `WMUL` (R56). -/
  | wmul
  deriving DecidableEq, Repr

/-- A command record: the five input ports, sampled together (R13, R30). -/
structure Command where
  cmd : BitVec 3
  p0 : Native
  p1 : Native
  liq : Native
  amount : Amount
  deriving DecidableEq, Repr

/-- The two formats of the opcode table: a packed command record of 451 bits (R30) or a micro-operation label of
6 bits (R40). -/
inductive Encoding
  | command (w : BitVec 451)
  | label (u : BitVec 6)
  deriving DecidableEq, Repr

/-- Why a word stands for no instruction. -/
inductive Undecodable
  /-- `uop[3:0]` is `1010` to `1111`, which "name no unit" (R41). -/
  | noUnit (unit : BitVec 4)
  deriving DecidableEq, Repr

/-- The five failures (R36, 60_exceptions.md R101). -/
inductive Failure
  | underflow
  | scaleOverflow
  | resultOverflow
  | divisionByZero
  | overflow
  deriving DecidableEq, Repr

/-- The status of a response: exactly six values (R36, R37). -/
inductive Status
  | ok
  | failed (f : Failure)
  deriving DecidableEq, Repr

/-- A response as a sum: a value exists only when the status is `OK` (10_state.md R14, 93 U1). -/
inductive Response
  | ok (v : Native)
  | err (f : Failure)
  deriving DecidableEq, Repr

/-- The `status` field of a response (R35). -/
def Response.status : Response → Status
  | .ok _ => .ok
  | .err f => .failed f

end Sys2Proof
end

