-- ==== Sys2Proof/WellFormed.lean ====
section
/-! DEFINITION. Calls as a host writes them, with unbounded numbers, and the check that makes an instruction of one
(30_encoding.md R38; 00_scope.md R8: "A width is a claim about the range of a value"). An `Instr` itself is well formed by its
types: each operand has exactly its port's width (20_memory.md R22), and every operand value is legal (R34). -/

namespace Sys2Proof

/-- The four mnemonics of R31, in the order of their codes. -/
inductive CallName
  | deltaA
  | deltaB
  | liqA
  | liqB
  deriving DecidableEq, Repr

/-- `MNEMONIC p0, p1, x, round_up` with the numbers as written (R38). -/
structure Call where
  name : CallName
  p0 : Nat
  p1 : Nat
  x : Nat
  roundUp : Nat
  deriving DecidableEq, Repr

/-- What can be wrong with a written call. -/
inductive IllFormed
  /-- `p0` is no `u128` (R13). -/
  | p0TooWide
  /-- `p1` is no `u128` (R13). -/
  | p1TooWide
  /-- `x` does not fit the port its command reads: `liq` is a `u128`, `amount` a `u64` (R13, R38). -/
  | operandTooWide
  /-- `round_up` is neither 0 nor 1 (R38). -/
  | roundUpNotABit
  deriving DecidableEq, Repr

/-- The width of the port that `x` stands for (R13, R38). -/
def CallName.operandWidth : CallName → Nat
  | .deltaA => Config.NW
  | .deltaB => Config.NW
  | .liqA => Config.AIW
  | .liqB => Config.AIW

/-- The first check a written call does not pass, none if it passes all. -/
def Call.problem (c : Call) : Option IllFormed :=
  if 2 ^ Config.NW ≤ c.p0 then some .p0TooWide
  else if 2 ^ Config.NW ≤ c.p1 then some .p1TooWide
  else if 2 ^ c.name.operandWidth ≤ c.x then some .operandTooWide
  else if 2 ≤ c.roundUp then some .roundUpNotABit
  else none

/-- A written call is well formed when every number fits its port. -/
def Call.wellFormed (c : Call) : Bool := c.problem.isNone

/-- `round_up` as a rounding mode: 0 is `Down`, 1 is `Up` (R32). -/
def Call.mode (c : Call) : RoundingMode := if c.roundUp = 0 then .down else .up

/-- The instruction a well-formed call stands for; an ill-formed call is refused with its first problem. -/
def Call.assemble (c : Call) : Except IllFormed Instr :=
  match c.problem with
  | some e => .error e
  | none =>
    match c.name with
    | .deltaA => .ok (.deltaA c.mode (BitVec.ofNat 128 c.p0) (BitVec.ofNat 128 c.p1) (BitVec.ofNat 128 c.x))
    | .deltaB => .ok (.deltaB c.mode (BitVec.ofNat 128 c.p0) (BitVec.ofNat 128 c.p1) (BitVec.ofNat 128 c.x))
    | .liqA => .ok (.liqA c.mode (BitVec.ofNat 128 c.p0) (BitVec.ofNat 128 c.p1) (BitVec.ofNat 64 c.x))
    | .liqB => .ok (.liqB c.mode (BitVec.ofNat 128 c.p0) (BitVec.ofNat 128 c.p1) (BitVec.ofNat 64 c.x))

end Sys2Proof
end

