-- ==== Sys2Proof/Decode.lean ====
section
/-! DEFINITION. The decoder, total on every command record and every label, and the encoder, both from the tables of
30_encoding.md (R30, R31, R35, R36, R40). -/

namespace Sys2Proof

/-- The record of five ports in a packed word: `cmd` in bits 2 to 0, `p0` 130 to 3, `p1` 258 to 131, `liq` 386 to
259, `amount` 450 to 387 (R30). -/
def Command.unpack (w : BitVec 451) : Command where
  cmd := w.extractLsb' 0 3
  p0 := w.extractLsb' 3 128
  p1 := w.extractLsb' 131 128
  liq := w.extractLsb' 259 128
  amount := w.extractLsb' 387 64

/-- The rounding mode a bit selects: `0` is `Down`, `1` is `Up` (R32, R40). -/
def RoundingMode.ofBit (b : Bool) : RoundingMode := if b then .up else .down

/-- The output width a bit selects: `0` is 64 bits, `1` is 128 bits (R40). -/
def OutWidth.ofBit (b : Bool) : OutWidth := if b then .w128 else .w64

/-- `cmd[1:0]` alone chooses the operation and `cmd[2]` is an operand (R31); a command carries the ports it reads,
each at its own value (R13, R33). All eight values of `cmd` are legal (R34). -/
def decodeCommand (c : Command) : Instr :=
  match c.cmd.getLsbD 1, c.cmd.getLsbD 0 with
  | false, false => .deltaA (.ofBit (c.cmd.getLsbD 2)) c.p0 c.p1 c.liq
  | false, true => .deltaB (.ofBit (c.cmd.getLsbD 2)) c.p0 c.p1 c.liq
  | true, false => .liqA (.ofBit (c.cmd.getLsbD 2)) c.p0 c.p1 c.amount
  | true, true => .liqB (.ofBit (c.cmd.getLsbD 2)) c.p0 c.p1 c.amount

/-- `uop[3:0]` selects the unit, `uop[4]` is `m`, `uop[5]` is `w`; "Bits a unit does not read are ignored by it" (R40).
Units `1010` to `1111` are refused by name (R41). -/
def decodeLabel (u : BitVec 6) : Except Undecodable Instr :=
  match (u.extractLsb' 0 4).toNat with
  | 0 => .ok .absd
  | 1 => .ok .fmul
  | 2 => .ok .cshl
  | 3 => .ok (.rdiv (.ofBit (u.getLsbD 4)) (.ofBit (u.getLsbD 5)))
  | 4 => .ok .wadd
  | 5 => .ok .wsub
  | 6 => .ok .wcmp
  | 7 => .ok .wshl
  | 8 => .ok (.wnar (.ofBit (u.getLsbD 5)))
  | 9 => .ok .wmul
  | _ => .error (.noUnit (u.extractLsb' 0 4))

/-- The decoder of both formats. -/
def decode : Encoding → Except Undecodable Instr
  | .command w => .ok (decodeCommand (Command.unpack w))
  | .label u => decodeLabel u

/-- The packed record `{amount, liq, p1, p0, cmd}` (R30). -/
def Command.pack (c : Command) : BitVec 451 := c.amount ++ c.liq ++ c.p1 ++ c.p0 ++ c.cmd

/-- The bit that selects a rounding mode (R32). -/
def RoundingMode.bit : RoundingMode → BitVec 1
  | .down => 0#1
  | .up => 1#1

/-- The bit that selects an output width (R40). -/
def OutWidth.bit : OutWidth → BitVec 1
  | .w64 => 0#1
  | .w128 => 1#1

/-- The `cmd` field `{round_up, op}` (R31). -/
def cmdField (m : RoundingMode) (op : BitVec 2) : BitVec 3 := m.bit ++ op

/-- The label `{w, m, unit}` (R40). -/
def unitLabel (w m : BitVec 1) (unit : BitVec 4) : BitVec 6 := w ++ m ++ unit

/-- The encoding of an instruction. The port a command does not read, and the label bits a unit does not read, are
driven to 0, as in 95_test_vectors.md section 9. DEDUCED, safe: log entry 11. -/
def encode : Instr → Encoding
  | .deltaA m p0 p1 liq => .command (Command.pack ⟨cmdField m 0b00#2, p0, p1, liq, 0⟩)
  | .deltaB m p0 p1 liq => .command (Command.pack ⟨cmdField m 0b01#2, p0, p1, liq, 0⟩)
  | .liqA m p0 p1 amount => .command (Command.pack ⟨cmdField m 0b10#2, p0, p1, 0, amount⟩)
  | .liqB m p0 p1 amount => .command (Command.pack ⟨cmdField m 0b11#2, p0, p1, 0, amount⟩)
  | .absd => .label (unitLabel 0 0 0b0000#4)
  | .fmul => .label (unitLabel 0 0 0b0001#4)
  | .cshl => .label (unitLabel 0 0 0b0010#4)
  | .rdiv m w => .label (unitLabel w.bit m.bit 0b0011#4)
  | .wadd => .label (unitLabel 0 0 0b0100#4)
  | .wsub => .label (unitLabel 0 0 0b0101#4)
  | .wcmp => .label (unitLabel 0 0 0b0110#4)
  | .wshl => .label (unitLabel 0 0 0b0111#4)
  | .wnar w => .label (unitLabel w.bit 0 0b1000#4)
  | .wmul => .label (unitLabel 0 0 0b1001#4)

/-- The code of a failure in `status` (R36). -/
def Failure.code : Failure → BitVec 3
  | .underflow => 1#3
  | .scaleOverflow => 2#3
  | .resultOverflow => 3#3
  | .divisionByZero => 4#3
  | .overflow => 5#3

/-- The code of a status (R36). -/
def Status.code : Status → BitVec 3
  | .ok => 0#3
  | .failed f => f.code

/-- The status a code stands for; 6 and 7 are no status (R37, 93 U2). -/
def Status.ofCode (c : BitVec 3) : Option Status :=
  match c.toNat with
  | 0 => some .ok
  | 1 => some (.failed .underflow)
  | 2 => some (.failed .scaleOverflow)
  | 3 => some (.failed .resultOverflow)
  | 4 => some (.failed .divisionByZero)
  | 5 => some (.failed .overflow)
  | _ => none

/-- The packed response `{result, status}` (R35). On a failure the `result` bits have no meaning (R14, 93 U1), so the
caller supplies them as `x` and a claim holds for every `x` (log entry 12). -/
def Response.pack (x : Native) : Response → BitVec 131
  | .ok v => v ++ Status.code .ok
  | .err f => x ++ f.code

/-- What a host reads from a packed response: no value on a failure (R108, R128), nothing for codes 6 and 7 (R37). -/
def Response.unpack (w : BitVec 131) : Option Response :=
  match Status.ofCode (w.extractLsb' 0 3) with
  | some .ok => some (.ok (w.extractLsb' 3 128))
  | some (.failed f) => some (.err f)
  | none => none

/-- A word with no bit from 451 on is a packed record. -/
theorem lt_of_shift_eq_zero {w : Nat} (h : w >>> 451 = 0) : w < 2 ^ 451 := by
  rw [Nat.shiftRight_eq_div_pow] at h
  exact Nat.lt_of_div_eq_zero (Nat.two_pow_pos 451) h

/-- The word of `nbits` bits as one of the two formats: a micro-operation label is 6 bits, in whole bytes 8, and a
command record is 451 bits. DESIGN CHOICE, safe: log entry 9. -/
def tableEncoding (nbits w : Nat) : Option Encoding :=
  if nbits ≤ 8 then
    if w < 2 ^ 6 then some (.label (BitVec.ofNat 6 w)) else none
  else
    if h : w >>> 451 = 0 then some (.command (BitVec.ofNatLT w (lt_of_shift_eq_zero h))) else none

/-- The instruction the decoder reads from a row's word, numbered as spec/opcode_table.json numbers it. -/
def decodeTableWord (nbits w : Nat) : Option Instr :=
  match tableEncoding nbits w with
  | some e => (decode e).toOption
  | none => none

end Sys2Proof
end

