-- ==== Sys2Proof/Machine/State.lean ====
section
/-! DEFINITION. The machine's state: the ports of one call (10_state.md R13, R14) and the model's bookkeeping (R10), with
State.reset (R19, R120), Fault and Refusal. -/

namespace Sys2Proof.Machine

/-- No rule of the spec stops the machine: every failure is a status of the call that caused it (60_exceptions.md R100;
93_implementation_defined.md: "Nothing in the block is a `fault`"). So no constructor, raised by nobody. -/
inductive Fault
  deriving DecidableEq, Repr

/-- Why a step has no meaning. -/
inductive Refusal
  /-- Raised by exec's arm of an instruction the model gives no meaning: none is left. Safe. -/
  | notModelled (mnemonic : String)
  /-- Raised by step for a label whose `uop[3:0]` is `1010` to `1111`: these "name no unit" and the sequencer never
  issues them (R41). Safe: the model stops where the block has nothing to run. Log entry 14. -/
  | noSuchUnit (unit : BitVec 4)
  deriving DecidableEq, Repr

/-- One invocation of a unit with its operands, as the log of a call keeps it (R40, R42). -/
inductive UnitCall
  | absd (a b : Native)
  | fmul (a b : Native)
  | cshl (v : Wide)
  | rdiv (n d : Wide) (m : RoundingMode) (w : OutWidth)
  | wadd (a b : Wide)
  | wsub (a b : Wide)
  | wcmp (a b : Wide)
  | wshl (v : Wide)
  | wnar (v : Wide) (w : OutWidth)
  | wmul (a : Wide) (b : Amount)
  deriving DecidableEq, Repr

/-- The micro-operation of an invocation, without its operands. -/
def UnitCall.instr : UnitCall → Instr
  | .absd _ _ => .absd
  | .fmul _ _ => .fmul
  | .cshl _ => .cshl
  | .rdiv _ _ m w => .rdiv m w
  | .wadd _ _ => .wadd
  | .wsub _ _ => .wsub
  | .wcmp _ _ => .wcmp
  | .wshl _ => .wshl
  | .wnar _ w => .wnar w
  | .wmul _ _ => .wmul

/-- The value a unit returns, at the width R40's table gives it. -/
inductive UnitValue
  /-- A `u128`: `ABSD`, and `RDIV` and `WNAR` with `w = 1`. -/
  | native (v : Native)
  /-- A `u256`: `FMUL`, `CSHL`, `WSUB`, `WSHL`, `WMUL`. -/
  | wide (v : Wide)
  /-- A `u257` as carry and `u256`: `WADD` (R51). -/
  | sum (c : Bool) (s : Wide)
  /-- Two bits: `WCMP` (R53). -/
  | order (o : BitVec 2)
  /-- A `u64`: `RDIV` and `WNAR` with `w = 0`. -/
  | amount (v : Amount)
  deriving DecidableEq, Repr

/-- "either one value or one failure, never both and never neither" (40_wideint.md R58). -/
inductive UnitOutcome
  | ok (v : UnitValue)
  | fail (f : Failure)
  deriving DecidableEq, Repr

/-- The operand wires of a unit run by itself, each at the width of R40's inputs column: `a`, `b` of the native units,
`a`, `b` (or `v`, or `n`, `d`) of the wide units, `b` of `WMUL`. The model's own: log entry 5. -/
structure Wires where
  a128 : Native
  b128 : Native
  a256 : Wide
  b256 : Wide
  b64 : Amount
  deriving DecidableEq, Repr

/-- What the next step takes up: a command held on the input ports, or a unit run by itself. The model's own: log
entries 1 and 5. -/
inductive Request
  | command
  | label (u : BitVec 6)
  deriving DecidableEq, Repr

/-- The machine. The spec's: the input ports and the output ports. The model's own: the rest. -/
structure State where
  /-- The five input ports (R13). -/
  ports : Command
  /-- The two output ports as a response; none before the first one (R14, R19). -/
  response : Option Response
  /-- What is presented, none when nothing is (log entry 1). -/
  request : Option Request
  /-- The micro-operations the last call issued, oldest first (R10: "a log of calls"; log entry 7). -/
  issued : List UnitCall
  /-- Operands of a unit run by itself (log entry 5). -/
  wires : Wires
  /-- Outcome of the last unit run by itself (log entry 5). -/
  unitOut : Option UnitOutcome
  deriving DecidableEq, Repr

/-- After reset: no call presented, no response yet (R19, R120). The zeros on the ports and wires are DESIGN CHOICE,
unsafe: log entry 3; the model's own fields: log entry 4. -/
def State.reset : State where
  ports := ⟨0, 0, 0, 0, 0⟩
  response := none
  request := none
  issued := []
  wires := ⟨0, 0, 0, 0, 0⟩
  unitOut := none

end Sys2Proof.Machine
end

