-- ==== Sys2Proof/Machine/Flags.lean ====
section
/-! DEFINITION. The result wires that look like flags (10_state.md R12): each is computed in one invocation and never stored. -/

namespace Sys2Proof.Machine

/-- `WADD`'s carry `c`, bit 256 of the exact sum (40_wideint.md R51). -/
def carry (a b : Wide) : Bool := (a.toNat + b.toNat).testBit 256

/-- `WCMP`'s two bits: `00` equal, `01` less, `10` greater, on the numbers (R53). -/
def order (a b : Wide) : BitVec 2 :=
  if a.toNat = b.toNat then 0b00#2
  else if a.toNat < b.toNat then 0b01#2
  else 0b10#2

/-- `CSHL`'s `ovf`, read from one `WCMP` of the operand with `SCALE_LIMIT`: set when the operand is not less
(42_checked_scale.md R66, a non-strict comparison). -/
def ovf (o : BitVec 2) : Bool := o != 0b01#2

/-- The zero test of `DELTA_A`, step (a) (44_delta_math.md R81). -/
def nothingToConvert (v0 liq : Native) : Bool := v0 == 0 || liq == 0

/-- A value is too large for an output of `n` bits (R55, R71 step 4). -/
def tooWide (v n : Nat) : Bool := decide (2 ^ n - 1 < v)

end Sys2Proof.Machine
end

