-- ==== Sys2Proof/Machine/Operands.lean ====
section
/-! DEFINITION. How operands are widened and results are placed (30_encoding.md R33; 44_delta_math.md R95), and the values a
unit run by itself returns. -/

namespace Sys2Proof.Machine

/-- `zext_128(amount)` (R33). -/
def zext128 (v : Amount) : Native := v.setWidth 128

/-- `zext_256(v)`: a native value as a denominator (R33, 43_rounding_divide.md R70). -/
def zext256 (v : Native) : Wide := v.setWidth 256

/-- A `u64` result stands in `result[63:0]` with `result[127:64] = 0` (10_state.md R14, R95). -/
def placeAmount (v : Amount) : Native := v.setWidth 128

/-- A `u128` result is `result[127:0]` (R95). -/
def placeLiquidity (v : Native) : Native := v

/-- A narrowed value at the width its `w` selects (R40). -/
def narrowed : (w : OutWidth) → BitVec w.bits → UnitValue
  | .w64, v => .amount v
  | .w128, v => .native v

end Sys2Proof.Machine
end

