-- ==== Sys2Proof/Machine/Ops.lean ====
section
/-! DEFINITION. The shared operations: the notation `x <- U(args)`, `return OK(v)`, `fail <Status>` of 00_scope.md R8 with the log
of issued micro-operations (30_encoding.md R42), the end of a call with a value or a failure (60_exceptions.md R106, R107), a
unit run by itself, and taking up what is presented. -/

namespace Sys2Proof.Machine

/-- Part of a command: the micro-operations it issues, oldest first, and how it ends. -/
structure Run (α : Type) where
  issued : List UnitCall
  outcome : Except Failure α

/-- `return OK(v)`. -/
def Run.ok {α : Type} (v : α) : Run α := ⟨[], .ok v⟩

/-- `fail <Status>`. -/
def Run.fail {α : Type} (f : Failure) : Run α := ⟨[], .error f⟩

/-- A micro-operation enters the log when it is issued, whether it then fails or not. -/
def Run.issue {α : Type} (c : UnitCall) (r : Run α) : Run α := ⟨c :: r.issued, r.outcome⟩

/-- `x <- U(args)`: the value of `U`, or the whole command fails with the same status and "no later step runs" (R8). -/
def Run.bind {α β : Type} (r : Run α) (k : α → Run β) : Run β :=
  match r.outcome with
  | .ok v => ⟨r.issued ++ (k v).issued, (k v).outcome⟩
  | .error f => ⟨r.issued, .error f⟩

/-- The value in another form. -/
def Run.map {α β : Type} (g : α → β) (r : Run α) : Run β :=
  ⟨r.issued,
    match r.outcome with
    | .ok v => .ok (g v)
    | .error f => .error f⟩

/-- The same run with any failure reported under another name (43_rounding_divide.md R73). -/
def Run.failingAs {α : Type} (f : Failure) (r : Run α) : Run α :=
  ⟨r.issued,
    match r.outcome with
    | .ok v => .ok v
    | .error _ => .error f⟩

/-- The response of a call that ends with a value (10_state.md R14). -/
def State.succeed (s : State) (v : Native) (issued : List UnitCall) : State :=
  { s with response := some (.ok v), issued := issued }

/-- A failure, this block's "trap entry" (R106): the response carries the status and no value; "Nothing is saved ...
nothing in the block changes", no pc, mode or mask exists. The "trap return" (R107) is that nothing has to be restored:
the state is ready for any other call. -/
def State.failCall (s : State) (f : Failure) (issued : List UnitCall) : State :=
  { s with response := some (.err f), issued := issued }

/-- The end of a call, with a value or a failure: a next state either way (R100, R107). -/
def State.answer (s : State) (r : Run Native) : Host.Outcome State Fault Refusal :=
  match r.outcome with
  | .ok v => .next (s.succeed v r.issued)
  | .error f => .next (s.failCall f r.issued)

/-- The end of a unit run by itself: only `unitOut` changes, since a micro-operation is "never visible at the ports"
(R40). DESIGN CHOICE, safe: log entry 5. -/
def State.bench {α : Type} (s : State) (r : Run α) (value : α → UnitValue) : Host.Outcome State Fault Refusal :=
  match r.outcome with
  | .ok v => .next { s with unitOut := some (.ok (value v)) }
  | .error f => .next { s with unitOut := some (.fail f) }

/-- The engine takes up what is presented, once (D1: "each accepted command gets exactly one response"). DESIGN
CHOICE, safe: log entry 2. -/
def State.accept (s : State) : State := { s with request := none }

/-- The instruction presented, none when nothing is. -/
def State.presented (s : State) : Option (Except Undecodable Instr) :=
  match s.request with
  | none => none
  | some .command => some (.ok (decodeCommand s.ports))
  | some (.label u) => some (decodeLabel u)

/-- The host presents a command record on the input ports (R109, R127). -/
def State.present (s : State) (c : Command) : State := { s with ports := c, request := some .command }

/-- A unit's label is presented, its operands being on the wires (log entry 5). -/
def State.presentLabel (s : State) (u : BitVec 6) : State := { s with request := some (.label u) }

/-- An encoding presented to the machine; without one, nothing is presented. -/
def State.presentEncoding (s : State) : Option Encoding → State
  | some (.command w) => s.present (Command.unpack w)
  | some (.label u) => s.presentLabel u
  | none => s.accept

end Sys2Proof.Machine
end

