-- ==== Sys2Proof/Machine/WideInt.lean ====
section
/-! DEFINITION. The 256-bit value type's operations and the native absolute difference (40_wideint.md R50 to R56), and the
meaning of each as a unit run by itself. -/

namespace Sys2Proof.Machine

/-- `ABSD a, b` (R50): always the smaller from the larger. -/
def absd (a b : Native) : Run Native :=
  .issue (.absd a b)
    (if b.toNat < a.toNat then .ok (BitVec.ofNat 128 (a.toNat - b.toNat))
     else .ok (BitVec.ofNat 128 (b.toNat - a.toNat)))

/-- `WADD a, b` (R51): the exact sum as carry and `u256`. -/
def wadd (a b : Wide) : Run (Bool × Wide) :=
  .issue (.wadd a b) (.ok (carry a b, BitVec.ofNat 256 (a.toNat + b.toNat)))

/-- `WSUB a, b` (R52). -/
def wsub (a b : Wide) : Run Wide :=
  .issue (.wsub a b)
    (if a.toNat < b.toNat then .fail .underflow
     else .ok (BitVec.ofNat 256 (a.toNat - b.toNat)))

/-- `WCMP a, b` (R53). -/
def wcmp (a b : Wide) : Run (BitVec 2) :=
  .issue (.wcmp a b) (.ok (order a b))

/-- `WSHL v` (R54): `(v * 2^64) mod 2^256`. Only `cshl` may call it (R126). -/
def wshl (v : Wide) : Run Wide :=
  .issue (.wshl v) (.ok (BitVec.ofNat 256 (v.toNat * 2 ^ Config.K)))

/-- `WNAR v, w` (R55): the same number at the narrower width, or `Overflow`. -/
def wnar (v : Wide) (w : OutWidth) : Run (BitVec w.bits) :=
  .issue (.wnar v w)
    (if tooWide v.toNat w.bits then .fail .overflow
     else .ok (BitVec.ofNat w.bits v.toNat))

/-- `WMUL a, b` (R56): the exact product, or `Overflow`. -/
def wmul (a : Wide) (b : Amount) : Run Wide :=
  .issue (.wmul a b)
    (if 2 ^ Config.W ≤ a.toNat * b.toNat then .fail .overflow
     else .ok (BitVec.ofNat 256 (a.toNat * b.toNat)))

/-- `ABSD` on the native wires. -/
def execAbsd (s : State) : Host.Outcome State Fault Refusal :=
  s.bench (absd s.wires.a128 s.wires.b128) .native

/-- `WADD` on the wide wires. -/
def execWadd (s : State) : Host.Outcome State Fault Refusal :=
  s.bench (wadd s.wires.a256 s.wires.b256) (fun r => .sum r.1 r.2)

/-- `WSUB` on the wide wires. -/
def execWsub (s : State) : Host.Outcome State Fault Refusal :=
  s.bench (wsub s.wires.a256 s.wires.b256) .wide

/-- `WCMP` on the wide wires. -/
def execWcmp (s : State) : Host.Outcome State Fault Refusal :=
  s.bench (wcmp s.wires.a256 s.wires.b256) .order

/-- `WSHL` on the first wide wire; at or above `2^192` the value R54 defines for totality. -/
def execWshl (s : State) : Host.Outcome State Fault Refusal :=
  s.bench (wshl s.wires.a256) .wide

/-- `WNAR` on the first wide wire. -/
def execWnar (w : OutWidth) (s : State) : Host.Outcome State Fault Refusal :=
  s.bench (wnar s.wires.a256 w) (narrowed w)

/-- `WMUL` on the first wide wire and the 64-bit wire. -/
def execWmul (s : State) : Host.Outcome State Fault Refusal :=
  s.bench (wmul s.wires.a256 s.wires.b64) .wide

end Sys2Proof.Machine
end

