-- ==== Sys2Proof/Machine/CheckedScale.lean ====
section
/-! DEFINITION. The checked left shifter by 64 (42_checked_scale.md R65, R66). -/

namespace Sys2Proof.Machine

/-- `CSHL v` (R66): one `WCMP` with `SCALE_LIMIT` on the unshifted value, then `WSHL` only when `ovf` is 0. -/
def cshl (v : Wide) : Run Wide :=
  .issue (.cshl v)
    ((wcmp v Config.scaleLimit).bind fun o =>
      if ovf o then .fail .scaleOverflow else wshl v)

/-- `CSHL` on the first wide wire. -/
def execCshl (s : State) : Host.Outcome State Fault Refusal :=
  s.bench (cshl s.wires.a256) .wide

end Sys2Proof.Machine
end

