-- ==== Sys2Proof/Machine/FullMultiply.lean ====
section
/-! DEFINITION. The 128 × 128 → 256 multiplier (41_full_multiply.md R60 to R62). -/

namespace Sys2Proof.Machine

/-- `FMUL a, b` (R60): the exact product, all 256 bits kept; never fails and has no flag (R61). -/
def fmul (a b : Native) : Run Wide :=
  .issue (.fmul a b) (.ok (BitVec.ofNat 256 (a.toNat * b.toNat)))

/-- `FMUL` on the native wires. -/
def execFmul (s : State) : Host.Outcome State Fault Refusal :=
  s.bench (fmul s.wires.a128 s.wires.b128) .wide

end Sys2Proof.Machine
end

