-- ==== Sys2Proof/Machine/RoundingDivide.lean ====
section
/-! DEFINITION. The rounding divider (43_rounding_divide.md R70 to R74). -/

namespace Sys2Proof.Machine

/-- R71 steps 2 and 3: the floor, plus one for `Up` on any remainder. -/
def roundedQuotient (n d : Nat) (m : RoundingMode) : Nat :=
  match m with
  | .down => n / d
  | .up => if n % d ≠ 0 then n / d + 1 else n / d

/-- `RDIV n, d, m, w` (R71): the denominator is tested first (R74), the rounded quotient is narrowed by one `WNAR`
whose failure is `ResultOverflow` here (R73). The rounded quotient always fits 256 bits (R72). -/
def rdiv (n d : Wide) (m : RoundingMode) (w : OutWidth) : Run (BitVec w.bits) :=
  .issue (.rdiv n d m w)
    (if d.toNat = 0 then .fail .divisionByZero
     else (wnar (BitVec.ofNat 256 (roundedQuotient n.toNat d.toNat m)) w).failingAs .resultOverflow)

/-- `RDIV` on the wide wires. -/
def execRdiv (m : RoundingMode) (w : OutWidth) (s : State) : Host.Outcome State Fault Refusal :=
  s.bench (rdiv s.wires.a256 s.wires.b256 m w) (narrowed w)

end Sys2Proof.Machine
end

