-- ==== Sys2Proof/Machine/DeltaMath.lean ====
section
/-! DEFINITION. The four conversions, each the list of micro-operations of 30_encoding.md R42 in its order (44_delta_math.md). -/

namespace Sys2Proof.Machine

/-- `DELTA_A` (R81), steps (a) to (e); the zero short-cut comes before every other test (R82). -/
def deltaA (m : RoundingMode) (p0 p1 liq : Native) : Run Amount :=
  (absd p0 p1).bind fun v0 =>
  if nothingToConvert v0 liq then .ok 0
  else
    (fmul liq v0).bind fun prod =>
    (cshl prod).bind fun shifted =>
    (fmul p0 p1).bind fun denom =>
    rdiv shifted denom m .w64

/-- `DELTA_B` (R85): no shifter, no short-cut; the denominator is `2^B_SHIFT`. -/
def deltaB (m : RoundingMode) (p0 p1 liq : Native) : Run Amount :=
  (absd p0 p1).bind fun v0 =>
  (fmul liq v0).bind fun prod =>
  rdiv prod Config.bDivisor m .w64

/-- `LIQ_A` (R88): numerator before denominator (R104), the factor `2^64` on the denominator by `FMUL` (R90). -/
def liqA (m : RoundingMode) (p0 p1 : Native) (amount : Amount) : Run Native :=
  (absd p0 p1).bind fun v0 =>
  (fmul p0 p1).bind fun pp =>
  (wmul pp amount).bind fun num =>
  (fmul v0 Config.scaleFactor).bind fun den =>
  rdiv num den m .w128

/-- `LIQ_B` (R92): the inverse of `DELTA_B`, on the same `B_SHIFT`. -/
def liqB (m : RoundingMode) (p0 p1 : Native) (amount : Amount) : Run Native :=
  (absd p0 p1).bind fun v0 =>
  (fmul (zext128 amount) Config.bFactor).bind fun num =>
  rdiv num (zext256 v0) m .w128

/-- The call `DELTA_A`. -/
def execDeltaA (m : RoundingMode) (p0 p1 liq : Native) (s : State) : Host.Outcome State Fault Refusal :=
  s.answer ((deltaA m p0 p1 liq).map placeAmount)

/-- The call `DELTA_B`. -/
def execDeltaB (m : RoundingMode) (p0 p1 liq : Native) (s : State) : Host.Outcome State Fault Refusal :=
  s.answer ((deltaB m p0 p1 liq).map placeAmount)

/-- The call `LIQ_A`. -/
def execLiqA (m : RoundingMode) (p0 p1 : Native) (amount : Amount) (s : State) : Host.Outcome State Fault Refusal :=
  s.answer ((liqA m p0 p1 amount).map placeLiquidity)

/-- The call `LIQ_B`. -/
def execLiqB (m : RoundingMode) (p0 p1 : Native) (amount : Amount) (s : State) : Host.Outcome State Fault Refusal :=
  s.answer ((liqB m p0 p1 amount).map placeLiquidity)

end Sys2Proof.Machine
end

