-- ==== Sys2Proof/Machine/Dispatch.lean ====
section
/-! DEFINITION. One arm per instruction. -/

namespace Sys2Proof.Machine

def exec (i : Instr) (s : State) : Host.Outcome State Fault Refusal :=
  match i with
  | .deltaA m p0 p1 liq => Sys2Proof.Machine.execDeltaA m p0 p1 liq s
  | .deltaB m p0 p1 liq => Sys2Proof.Machine.execDeltaB m p0 p1 liq s
  | .liqA m p0 p1 amount => Sys2Proof.Machine.execLiqA m p0 p1 amount s
  | .liqB m p0 p1 amount => Sys2Proof.Machine.execLiqB m p0 p1 amount s
  | .absd => Sys2Proof.Machine.execAbsd s
  | .fmul => Sys2Proof.Machine.execFmul s
  | .cshl => Sys2Proof.Machine.execCshl s
  | .rdiv m w => Sys2Proof.Machine.execRdiv m w s
  | .wadd => Sys2Proof.Machine.execWadd s
  | .wsub => Sys2Proof.Machine.execWsub s
  | .wcmp => Sys2Proof.Machine.execWcmp s
  | .wshl => Sys2Proof.Machine.execWshl s
  | .wnar w => Sys2Proof.Machine.execWnar w s
  | .wmul => Sys2Proof.Machine.execWmul s

end Sys2Proof.Machine
end

