-- ==== Sys2Proof/Machine/Step.lean ====
section
/-! DEFINITION. One step: the engine takes up what is presented and performs all of it, "as a single atomic step"
(60_exceptions.md R111). -/

namespace Sys2Proof.Machine

/-- A step. With nothing presented, nothing happens: "nothing happens in it except in answer to a command" (R105). -/
def step (s : State) : Host.Outcome State Fault Refusal :=
  match s.presented with
  | none => .next s
  | some (.ok i) => exec i s.accept
  | some (.error (.noUnit u)) => .refused (.noSuchUnit u)

/-- `s` with the row's word presented, so that the next step runs it: a command's record on the input ports, a unit's
label with the operand wires as they stand (log entries 9 and 10). -/
def State.withFetchWord (s : State) (nbits w : Nat) : State :=
  s.presentEncoding (tableEncoding nbits w)

end Sys2Proof.Machine
end

