-- ==== Sys2Proof/Safety.lean ====
section
/-! DEFINITION. The terms claims use: what an outcome says of the response, the conversions in closed form over unbounded
naturals (44_delta_math.md R83, R86, R89, R93), the order of micro-operations (30_encoding.md R42), which unit raises which failure
(60_exceptions.md R101), the invariant of a safe run, and the defective shifter the block must not be (42_checked_scale.md R69). -/

namespace Sys2Proof.Safety

open Sys2Proof.Machine

/-- The response a step leaves on the output ports; none where the step gives no next state. -/
def responseOf : Host.Outcome State Fault Refusal → Option Response
  | .next t => t.response
  | .fault _ => none
  | .refused _ => none

/-- A command completes with response `r`, and changes nothing but the response and the log of issued micro-operations. -/
def Answers (i : Instr) (s : State) (r : Response) : Prop :=
  ∃ issued, exec i s = .next { s with response := some r, issued := issued }

/-- A unit run by itself completes with outcome `o`, and changes nothing else. -/
def Yields (i : Instr) (s : State) (o : UnitOutcome) : Prop :=
  exec i s = .next { s with unitOut := some o }

/-- The four commands, as against the ten micro-operations (30_encoding.md R31, R40). -/
def isCommand : Instr → Bool
  | .deltaA _ _ _ _ => true
  | .deltaB _ _ _ _ => true
  | .liqA _ _ _ _ => true
  | .liqB _ _ _ _ => true
  | .absd => false
  | .fmul => false
  | .cshl => false
  | .rdiv _ _ => false
  | .wadd => false
  | .wsub => false
  | .wcmp => false
  | .wshl => false
  | .wnar _ => false
  | .wmul => false

/-- `|p1 − p0|` on naturals. -/
def gap (p0 p1 : Native) : Nat := (p0.toNat - p1.toNat) + (p1.toNat - p0.toNat)

/-- `⌊n/d⌋` or `⌈n/d⌉` as D0 writes them, `floor(N/D)` and `floor((N + D - 1) / D)`, without a width (43_rounding_divide.md R72). -/
def rounded (m : RoundingMode) (n d : Nat) : Nat :=
  match m with
  | .down => n / d
  | .up => (n + d - 1) / d

/-- The response with value `q` if it is below `2^n`, else `ResultOverflow` (R71 step 4, R73). -/
def fitting (n q : Nat) : Response :=
  if q < 2 ^ n then .ok (BitVec.ofNat 128 q) else .err .resultOverflow

/-- `DELTA_A` in closed form: R82, then R83 (1), (2), (3). -/
def deltaAResponse (m : RoundingMode) (p0 p1 liq : Native) : Response :=
  if p0 = p1 ∨ liq = 0 then .ok 0
  else if 2 ^ 192 ≤ liq.toNat * gap p0 p1 then .err .scaleOverflow
  else if p0 = 0 ∨ p1 = 0 then .err .divisionByZero
  else fitting 64 (rounded m (liq.toNat * gap p0 p1 * 2 ^ 64) (p0.toNat * p1.toNat))

/-- `DELTA_B` in closed form (R85, R86), on `B_SHIFT`. -/
def deltaBResponse (m : RoundingMode) (p0 p1 liq : Native) : Response :=
  fitting 64 (rounded m (liq.toNat * gap p0 p1) (2 ^ Config.bShift))

/-- `LIQ_A` in closed form: R89 (1), (2), (3). -/
def liqAResponse (m : RoundingMode) (p0 p1 : Native) (amount : Amount) : Response :=
  if 2 ^ 256 ≤ p0.toNat * p1.toNat * amount.toNat then .err .overflow
  else if p0 = p1 then .err .divisionByZero
  else fitting 128 (rounded m (p0.toNat * p1.toNat * amount.toNat) (gap p0 p1 * 2 ^ 64))

/-- `LIQ_B` in closed form (R92, R93), on `B_SHIFT`: no narrowing failure is possible. -/
def liqBResponse (m : RoundingMode) (p0 p1 : Native) (amount : Amount) : Response :=
  if p0 = p1 then .err .divisionByZero
  else .ok (BitVec.ofNat 128 (rounded m (amount.toNat * 2 ^ Config.bShift) (gap p0 p1)))

/-- The whole program of a command (R42), `CSHL` followed by the `WCMP` and `WSHL` it uses and `RDIV` by its `WNAR`; a
micro-operation has none. -/
def program : Instr → List Instr
  | .deltaA m _ _ _ => [.absd, .fmul, .cshl, .wcmp, .wshl, .fmul, .rdiv m .w64, .wnar .w64]
  | .deltaB m _ _ _ => [.absd, .fmul, .rdiv m .w64, .wnar .w64]
  | .liqA m _ _ _ => [.absd, .fmul, .wmul, .fmul, .rdiv m .w128, .wnar .w128]
  | .liqB m _ _ _ => [.absd, .fmul, .rdiv m .w128, .wnar .w128]
  | .absd => []
  | .fmul => []
  | .cshl => []
  | .rdiv _ _ => []
  | .wadd => []
  | .wsub => []
  | .wcmp => []
  | .wshl => []
  | .wnar _ => []
  | .wmul => []

/-- The micro-operation that ends a call with failure `f`, with R101's exact condition on its operands: `CSHL`'s
comparison, `RDIV`'s denominator, the `WNAR` inside `RDIV`, `WMUL`; none for `Underflow` (R103). -/
def Raises (c : UnitCall) (f : Failure) : Prop :=
  match f, c with
  | .scaleOverflow, .wcmp v limit => limit.toNat = 2 ^ 192 ∧ 2 ^ 192 ≤ v.toNat
  | .divisionByZero, .rdiv _ d _ _ => d = 0
  | .resultOverflow, .wnar v w => 2 ^ w.bits ≤ v.toNat
  | .overflow, .wmul a b => 2 ^ 256 ≤ a.toNat * b.toNat
  | _, _ => False

/-- What a call may issue: never `WADD` or `WSUB` (R42), and `WSHL` only where no bit is lost (R54, R126). -/
def Permitted (c : UnitCall) : Prop :=
  match c with
  | .wadd _ _ => False
  | .wsub _ _ => False
  | .wshl v => v.toNat * 2 ^ 64 < 2 ^ 256
  | _ => True

/-- The invariant of every run. -/
structure RunInv (s : State) : Prop where
  /-- Every micro-operation of the last call was permitted (R42, R54, R126). -/
  issuedPermitted : ∀ c ∈ s.issued, Permitted c
  /-- There is a response exactly when a call has been made (R19). -/
  responseOfACall : s.response = none ↔ s.issued = []
  /-- A failure stands on the ports only if the last micro-operation issued raised it (R101, R104, R106). -/
  failureWasRaised : ∀ f, s.response = some (.err f) → ∃ c, s.issued.getLast? = some c ∧ Raises c f

/-- A row of R68's table: operand, `ovf`, outcome. -/
def BoundaryRow (v : Nat) (o : Bool) (r : Except Failure Nat) : Prop :=
  ovf (order (BitVec.ofNat 256 v) Config.scaleLimit) = o ∧
  match r with
  | .ok q => (cshl (BitVec.ofNat 256 v)).outcome = .ok (BitVec.ofNat 256 q)
  | .error f => (cshl (BitVec.ofNat 256 v)).outcome = .error f

/-- R69's `DEFECTIVE_CSHL`, the shifter the block must NOT be: only claims about the difference name it. -/
def defectiveCshl (v : Wide) : Except Failure Wide :=
  if 0xffffffffffffffff * 2 ^ 192 < v.toNat then .error .scaleOverflow
  else .ok (BitVec.ofNat 256 (v.toNat * 2 ^ 64))

end Sys2Proof.Safety
end

