-- ==== Sys2Proof/Certificates/Slice0/Obligations.lean ====
section
/-! DEFINITION. The statements for the provers, from the numbered rules of spec/. A statement about a response says `Answers` or
`responseOf`, one about a unit run by itself says `Yields` (Safety.lean): both carry completion and frame. -/

open Sys2Proof Sys2Proof.Machine Sys2Proof.Safety

/-! ## The machine: reset, step, presentation -/

/-- R19, R120, R121: no response before the first call, and the limit is there from the start. The zeros on the ports and
wires are the model's choice, log entry 3; no request, an empty log and no unit outcome are the model's choice, log entry 4. -/
def Obligations.ResetHoldsNoCallAndTheLimit : Prop :=
  State.reset.response = none ∧ Config.scaleLimit.toNat = 2 ^ 192 ∧
  State.reset.request = none ∧ State.reset.issued = [] ∧ State.reset.unitOut = none ∧
  State.reset.ports = ⟨0, 0, 0, 0, 0⟩ ∧ State.reset.wires = ⟨0, 0, 0, 0, 0⟩

/-- R105, R111, R41: nothing presented, nothing happens; a presented command or label is decoded and performed in one
step, after the request is taken up (the model's own field, log entries 1 and 2); a label of no unit is refused by name. -/
def Obligations.StepRunsThePresentedInstruction : Prop :=
  (∀ s, s.request = none → step s = .next s) ∧
  (∀ s, s.request = some .command → step s = exec (decodeCommand s.ports) { s with request := none }) ∧
  (∀ s u i, s.request = some (.label u) → decodeLabel u = .ok i → step s = exec i { s with request := none }) ∧
  (∀ s u, s.request = some (.label u) → 10 ≤ u.toNat % 16 →
    step s = .refused (.noSuchUnit (u.extractLsb' 0 4)))

/-- The word of a table row, presented to any state, is what the next step runs: the ports hold a command's record, unpacked from
the word, and are unchanged for a unit's label; nothing else the run could read is changed (log entries 9 and 10). -/
def Obligations.PresentedTableWordRunsNext : Prop :=
  ∀ (s : State) nbits w i, decodeTableWord nbits w = some i →
    ∃ c, step (s.withFetchWord nbits w) = exec i { s with ports := c, request := none } ∧
      (∀ x, tableEncoding nbits w = some (.command x) → c = Command.unpack x) ∧
      (isCommand i = false → c = s.ports)

/-- R131, R34, R123, decision D1: from every state, every command record is answered by one step with one response, after
which nothing is presented and a further step does nothing (one step a call: log entries 1 and 2). -/
def Obligations.EveryPresentedCommandIsAnsweredOnce : Prop :=
  ∀ (s : State) (c : Command), ∃ t r, step (s.present c) = .next t ∧
    t.response = some r ∧ t.ports = c ∧ t.request = none ∧ step t = .next t

/-- R25 (a), (b), R13, R114: the response is the same from any two states, for any two records that agree on `cmd`, on
both prices and on the one operand port the command reads. -/
def Obligations.ResponseDependsOnTheReadPortsAlone : Prop :=
  ∀ (s s' : State) (c c' : Command), c.cmd = c'.cmd → c.p0 = c'.p0 → c.p1 = c'.p1 →
    (c.cmd.getLsbD 1 = false → c.liq = c'.liq) →
    (c.cmd.getLsbD 1 = true → c.amount = c'.amount) →
    responseOf (step (s.present c)) = responseOf (step (s'.present c'))

/-- R107: after a call, failed or not, the next call is treated exactly as if the first had never been issued: the
whole next state is the same. -/
def Obligations.NextCallForgetsTheLast : Prop :=
  ∀ (s : State) (c c' : Command) t, step (s.present c) = .next t → step (t.present c') = step (s.present c')

/-- R25 (c): two calls made in either order each get the same response. -/
def Obligations.CallsCommute : Prop :=
  ∀ (s : State) (c₁ c₂ : Command), ∃ t₁ t₁₂ t₂ t₂₁,
    step (s.present c₁) = .next t₁ ∧ step (t₁.present c₂) = .next t₁₂ ∧
    step (s.present c₂) = .next t₂ ∧ step (t₂.present c₁) = .next t₂₁ ∧
    t₁.response = t₂₁.response ∧ t₂.response = t₁₂.response

/-- R42, R54, R101, R103, R106, R126: from every state that meets the invariant, every step keeps it. The log it
speaks of is the model's own field (log entry 7). -/
def Obligations.InvariantIsKeptByEveryStep : Prop :=
  ∀ s t : State, RunInv s → step s = .next t → RunInv t

/-- The reset state meets the invariant (R19; its empty log is log entry 4). -/
def Obligations.ResetMeetsTheInvariant : Prop :=
  RunInv State.reset

/-! ## Encodings -/

/-- Words written out from R30, R31 and R40 (95_test_vectors.md section 9): one or more per family. -/
def Obligations.SampleWordsDecode : Prop :=
  decode (.command 0x00000000000000000000000000000000000000000000000080000000000000008000000000000001000000000000000000000000000000010#451)
    = .ok (.deltaA .down 2 18446744073709551618 1) ∧
  decode (.command 0x00000000000000000000000000000000000000000000000180000000000000004000000000000000000000000000000000000000000000005#451)
    = .ok (.deltaB .up 0 9223372036854775808 3) ∧
  decode (.command 0x40000000000000000000000000000000000000000000000000000000000000008000000000000001000000000000000000000000000000012#451)
    = .ok (.liqA .down 2 18446744073709551618 9223372036854775808) ∧
  decode (.command 0x0000000000000000ffffffffffffffffffffffffffffffff80000000000000000000000000000001800000000000000000000000000000007#451)
    = .ok (.liqB .up 0 3 1) ∧
  decode (.label 0b000000#6) = .ok .absd ∧
  decode (.label 0b000001#6) = .ok .fmul ∧
  decode (.label 0b000010#6) = .ok .cshl ∧
  decode (.label 0b010011#6) = .ok (.rdiv .up .w64) ∧
  decode (.label 0b100011#6) = .ok (.rdiv .down .w128) ∧
  decode (.label 0b101000#6) = .ok (.wnar .w128) ∧
  decode (.label 0b001001#6) = .ok .wmul ∧
  decode (.label 0b001010#6) = .error (.noUnit 0b1010#4)

/-- Every instruction of both formats, with every operand at every value, is what its own encoding decodes to. -/
def Obligations.DecodeOfEncode : Prop :=
  ∀ i, decode (encode i) = .ok i

/-- R13, R40: encoding what a record or a label decodes to gives it back, but for the port the command does not read and the
label bits the unit does not read, which are 0 (log entry 11). -/
def Obligations.ReencodingClearsOnlyIgnoredBits : Prop :=
  (∀ c, encode (decodeCommand c) = .command (Command.pack
    { c with
      liq := if c.cmd.getLsbD 1 then 0 else c.liq
      amount := if c.cmd.getLsbD 1 then c.amount else 0 })) ∧
  (∀ u i, decodeLabel u = .ok i → encode i = .label (u &&&
    match i with
    | .rdiv _ _ => 0b111111#6
    | .wnar _ => 0b101111#6
    | _ => 0b001111#6))

/-- R30: each port stands at its own bits of the packed record, and nothing of either is lost. -/
def Obligations.RecordFieldsStandAtTheirBits : Prop :=
  (∀ c : Command, c.pack.toNat =
    c.cmd.toNat + c.p0.toNat * 2 ^ 3 + c.p1.toNat * 2 ^ 131 + c.liq.toNat * 2 ^ 259 + c.amount.toNat * 2 ^ 387) ∧
  (∀ c : Command, Command.unpack c.pack = c) ∧
  (∀ w, (Command.unpack w).pack = w)

/-- R31, R33: `cmd[1:0]` alone chooses the operation, `cmd[2]` the rounding mode, and the operands are the ports as they are. -/
def Obligations.CmdFieldChoosesTheOperation : Prop :=
  ∀ p0 p1 liq amount,
    decodeCommand ⟨0b000#3, p0, p1, liq, amount⟩ = .deltaA .down p0 p1 liq ∧
    decodeCommand ⟨0b100#3, p0, p1, liq, amount⟩ = .deltaA .up p0 p1 liq ∧
    decodeCommand ⟨0b001#3, p0, p1, liq, amount⟩ = .deltaB .down p0 p1 liq ∧
    decodeCommand ⟨0b101#3, p0, p1, liq, amount⟩ = .deltaB .up p0 p1 liq ∧
    decodeCommand ⟨0b010#3, p0, p1, liq, amount⟩ = .liqA .down p0 p1 amount ∧
    decodeCommand ⟨0b110#3, p0, p1, liq, amount⟩ = .liqA .up p0 p1 amount ∧
    decodeCommand ⟨0b011#3, p0, p1, liq, amount⟩ = .liqB .down p0 p1 amount ∧
    decodeCommand ⟨0b111#3, p0, p1, liq, amount⟩ = .liqB .up p0 p1 amount

/-- R36, R37: the six codes, each read back; 6 and 7 are no status (log entry 13). -/
def Obligations.StatusCodesAreSix : Prop :=
  Status.code .ok = 0 ∧ Status.code (.failed .underflow) = 1 ∧ Status.code (.failed .scaleOverflow) = 2 ∧
  Status.code (.failed .resultOverflow) = 3 ∧ Status.code (.failed .divisionByZero) = 4 ∧
  Status.code (.failed .overflow) = 5 ∧
  (∀ st, Status.ofCode st.code = some st) ∧ Status.ofCode 6 = none ∧ Status.ofCode 7 = none

/-- R35, R14: `status` in bits 2 to 0, `result` in bits 130 to 3 when there is a value; a host reads the response back
whatever the meaningless `result` bits `x` of a failure are (log entry 12). -/
def Obligations.PackedResponseReadsBack : Prop :=
  ∀ r x, Response.unpack (Response.pack x r) = some r ∧
    (Response.pack x r).toNat % 8 = r.status.code.toNat ∧
    (∀ v, r = .ok v → (Response.pack x r).toNat / 8 = v.toNat)

/-- R38, R8: a written call is an instruction exactly when every number fits its port, and then with those numbers
(the check of ranges is the model's own form, log entry 19). -/
def Obligations.WrittenCallKeepsItsNumbers : Prop :=
  (∀ c : Call, c.wellFormed = true ↔
    c.p0 < 2 ^ 128 ∧ c.p1 < 2 ^ 128 ∧ c.roundUp ≤ 1 ∧
    c.x < (match c.name with | .deltaA | .deltaB => 2 ^ 128 | .liqA | .liqB => 2 ^ 64)) ∧
  (∀ c : Call, c.wellFormed = true ↔ ∃ i, c.assemble = .ok i) ∧
  (∀ (c : Call) i, c.assemble = .ok i →
    match i with
    | .deltaA m p0 p1 x => c = ⟨.deltaA, p0.toNat, p1.toNat, x.toNat, if m = .up then 1 else 0⟩
    | .deltaB m p0 p1 x => c = ⟨.deltaB, p0.toNat, p1.toNat, x.toNat, if m = .up then 1 else 0⟩
    | .liqA m p0 p1 x => c = ⟨.liqA, p0.toNat, p1.toNat, x.toNat, if m = .up then 1 else 0⟩
    | .liqB m p0 p1 x => c = ⟨.liqB, p0.toNat, p1.toNat, x.toNat, if m = .up then 1 else 0⟩
    | _ => False)

/-! ## The units, each run by itself on its operand wires (log entry 5), with its label -/

/-- R50: the absolute difference, on any operands. The unit run by itself: log entry 5. -/
def Obligations.AbsdYieldsTheGap : Prop :=
  (∀ s : State, ∃ v, Yields .absd s (.ok (.native v)) ∧
    v.toNat = if s.wires.a128.toNat > s.wires.b128.toNat then s.wires.a128.toNat - s.wires.b128.toNat
      else s.wires.b128.toNat - s.wires.a128.toNat) ∧
  (∀ u, decodeLabel u = .ok .absd ↔ u.extractLsb' 0 4 = 0b0000#4)

/-- R51: the exact sum as carry and `u256`; never fails. The unit run by itself: log entry 5. -/
def Obligations.WaddKeepsTheCarry : Prop :=
  (∀ s : State, ∃ c v, Yields .wadd s (.ok (.sum c v)) ∧
    c.toNat * 2 ^ 256 + v.toNat = s.wires.a256.toNat + s.wires.b256.toNat) ∧
  (∀ u, decodeLabel u = .ok .wadd ↔ u.extractLsb' 0 4 = 0b0100#4)

/-- R52: the exact difference, or `Underflow` exactly when the minuend is smaller. The unit run by itself: log entry 5. -/
def Obligations.WsubIsExactOrUnderflows : Prop :=
  (∀ s : State, s.wires.a256.toNat < s.wires.b256.toNat → Yields .wsub s (.fail .underflow)) ∧
  (∀ s : State, s.wires.b256.toNat ≤ s.wires.a256.toNat →
    ∃ v, Yields .wsub s (.ok (.wide v)) ∧ v.toNat = s.wires.a256.toNat - s.wires.b256.toNat) ∧
  (∀ u, decodeLabel u = .ok .wsub ↔ u.extractLsb' 0 4 = 0b0101#4)

/-- R53: `00` equal, `01` less, `10` greater, on the numbers. The unit run by itself: log entry 5. -/
def Obligations.WcmpIsThreeWay : Prop :=
  (∀ s : State, ∃ o, Yields .wcmp s (.ok (.order o)) ∧ o ≠ 0b11#2 ∧
    (o = 0b00#2 ↔ s.wires.a256 = s.wires.b256) ∧
    (o = 0b01#2 ↔ s.wires.a256.toNat < s.wires.b256.toNat) ∧
    (o = 0b10#2 ↔ s.wires.b256.toNat < s.wires.a256.toNat)) ∧
  (∀ u, decodeLabel u = .ok .wcmp ↔ u.extractLsb' 0 4 = 0b0110#4)

/-- R54: the raw shift by 64, modulo `2^256`, on any operand; exact below `2^192`. The unit run by itself: log entry 5. -/
def Obligations.WshlShiftsModuloTheContainer : Prop :=
  (∀ s : State, ∃ v, Yields .wshl s (.ok (.wide v)) ∧
    v.toNat = s.wires.a256.toNat * 2 ^ 64 % 2 ^ 256 ∧
    (s.wires.a256.toNat < 2 ^ 192 → v.toNat = s.wires.a256.toNat * 2 ^ 64)) ∧
  (∀ u, decodeLabel u = .ok .wshl ↔ u.extractLsb' 0 4 = 0b0111#4)

/-- R55: the same number at 64 or 128 bits, or `Overflow` exactly when it does not fit. The unit run by itself: log entry 5. -/
def Obligations.WnarIsExactOrOverflows : Prop :=
  (∀ s : State, 2 ^ 64 ≤ s.wires.a256.toNat → Yields (.wnar .w64) s (.fail .overflow)) ∧
  (∀ s : State, s.wires.a256.toNat < 2 ^ 64 →
    ∃ v, Yields (.wnar .w64) s (.ok (.amount v)) ∧ v.toNat = s.wires.a256.toNat) ∧
  (∀ s : State, 2 ^ 128 ≤ s.wires.a256.toNat → Yields (.wnar .w128) s (.fail .overflow)) ∧
  (∀ s : State, s.wires.a256.toNat < 2 ^ 128 →
    ∃ v, Yields (.wnar .w128) s (.ok (.native v)) ∧ v.toNat = s.wires.a256.toNat) ∧
  (∀ u w, decodeLabel u = .ok (.wnar w) ↔
    u.extractLsb' 0 4 = 0b1000#4 ∧ (u.getLsbD 5 = true ↔ w = .w128))

/-- R56: the exact product, or `Overflow` exactly when it is `2^256` or more. The unit run by itself: log entry 5. -/
def Obligations.WmulIsExactOrOverflows : Prop :=
  (∀ s : State, 2 ^ 256 ≤ s.wires.a256.toNat * s.wires.b64.toNat → Yields .wmul s (.fail .overflow)) ∧
  (∀ s : State, s.wires.a256.toNat * s.wires.b64.toNat < 2 ^ 256 →
    ∃ v, Yields .wmul s (.ok (.wide v)) ∧ v.toNat = s.wires.a256.toNat * s.wires.b64.toNat) ∧
  (∀ u, decodeLabel u = .ok .wmul ↔ u.extractLsb' 0 4 = 0b1001#4)

/-- R60: the exact product of any two native values; never fails. The unit run by itself: log entry 5. -/
def Obligations.FmulIsExact : Prop :=
  (∀ s : State, ∃ v, Yields .fmul s (.ok (.wide v)) ∧ v.toNat = s.wires.a128.toNat * s.wires.b128.toNat) ∧
  (∀ u, decodeLabel u = .ok .fmul ↔ u.extractLsb' 0 4 = 0b0001#4)

/-- R63: the laws of the product, as laws of the unit's outcome. -/
def Obligations.FmulLaws : Prop :=
  ∃ product : Native → Native → Wide,
    (∀ a b, (fmul a b).outcome = .ok (product a b)) ∧
    (∀ a b, product a b = product b a) ∧
    (∀ a, product a 0 = 0) ∧
    (∀ a, (product a 1).toNat = a.toNat) ∧
    (∀ a, (product a (BitVec.ofNat 128 (2 ^ 64))).toNat = a.toNat * 2 ^ 64 ∧
      (product a (BitVec.ofNat 128 (2 ^ 64))).toNat < 2 ^ 192) ∧
    (∀ a b, product a b = 0 ↔ a = 0 ∨ b = 0) ∧
    (∀ a a' b, a.toNat ≤ a'.toNat → (product a b).toNat ≤ (product a' b).toNat) ∧
    (product (BitVec.ofNat 128 (2 ^ 128 - 1)) (BitVec.ofNat 128 (2 ^ 128 - 1))).toNat = 2 ^ 256 - 2 ^ 129 + 1

/-- R66: `ScaleOverflow` exactly from `2^192` on, else the exact product with `2^64`; `ovf` is 1 exactly when it fails.
The unit run by itself: log entry 5. -/
def Obligations.CshlIsExactOrOverflows : Prop :=
  (∀ s : State, 2 ^ 192 ≤ s.wires.a256.toNat → Yields .cshl s (.fail .scaleOverflow)) ∧
  (∀ s : State, s.wires.a256.toNat < 2 ^ 192 →
    ∃ v, Yields .cshl s (.ok (.wide v)) ∧ v.toNat = s.wires.a256.toNat * 2 ^ 64) ∧
  (∀ v : Wide, ovf (order v Config.scaleLimit) = true ↔ (cshl v).outcome = .error .scaleOverflow) ∧
  (∀ u, decodeLabel u = .ok .cshl ↔ u.extractLsb' 0 4 = 0b0010#4)

/-- R67: three forms of the one test, and nothing is lost when it is false. -/
def Obligations.ScaleTestHasThreeForms : Prop :=
  ∀ v : Wide,
    ((cshl v).outcome = .error .scaleOverflow ↔ 2 ^ 192 ≤ v.toNat) ∧
    ((cshl v).outcome = .error .scaleOverflow ↔ v.extractLsb' 192 64 ≠ 0) ∧
    ((cshl v).outcome = .error .scaleOverflow ↔ 2 ^ 256 ≤ v.toNat * 2 ^ 64) ∧
    (∀ r, (cshl v).outcome = .ok r →
      r.toNat = v.toNat * 2 ^ 64 ∧ r.extractLsb' 0 64 = 0 ∧ r.toNat / 2 ^ 64 = v.toNat)

/-- R68: D0's boundary, every row of the table, with its `ovf` bit. -/
def Obligations.ScaleBoundaryIsExact : Prop :=
  BoundaryRow 0 false (.ok 0) ∧
  BoundaryRow 1 false (.ok (2 ^ 64)) ∧
  BoundaryRow (2 ^ 128 - 1) false (.ok (2 ^ 192 - 2 ^ 64)) ∧
  BoundaryRow (2 ^ 192 - 1) false (.ok (2 ^ 256 - 2 ^ 64)) ∧
  BoundaryRow (2 ^ 192) true (.error .scaleOverflow) ∧
  BoundaryRow (2 ^ 192 + 1) true (.error .scaleOverflow) ∧
  BoundaryRow (2 ^ 255) true (.error .scaleOverflow) ∧
  BoundaryRow (2 ^ 256 - 2 ^ 192) true (.error .scaleOverflow) ∧
  BoundaryRow (2 ^ 256 - 2 ^ 192 + 1) true (.error .scaleOverflow) ∧
  BoundaryRow (2 ^ 256 - 1) true (.error .scaleOverflow)

/-- R69: the unit differs from the defective variant exactly on `[2^192, 2^256 - 2^192]`, both ends included (90 C2), where
the variant loses the top bits and the unit fails. -/
def Obligations.DefectiveShifterDiffersOnItsRange : Prop :=
  ∀ v : Wide,
    ((cshl v).outcome = defectiveCshl v ↔ ¬ (2 ^ 192 ≤ v.toNat ∧ v.toNat ≤ 2 ^ 256 - 2 ^ 192)) ∧
    (2 ^ 192 ≤ v.toNat → v.toNat ≤ 2 ^ 256 - 2 ^ 192 →
      (cshl v).outcome = .error .scaleOverflow ∧
      ∃ r, defectiveCshl v = .ok r ∧ r.toNat = v.toNat % 2 ^ 192 * 2 ^ 64 ∧ r.toNat < v.toNat * 2 ^ 64)

/-- R6, R130: the threshold and the shift amount come from the same parameters: below the limit, and only there, a shift by
`K` stays in the container. -/
def Obligations.ThresholdMatchesTheShift : Prop :=
  (∀ v : Wide, v.toNat < Config.scaleLimit.toNat ↔ v.toNat * 2 ^ Config.K < 2 ^ Config.W) ∧
  (∀ v : Wide, ∃ r, (wshl v).outcome = .ok r ∧ r.toNat = v.toNat * 2 ^ Config.K % 2 ^ Config.W)

/-- R71, R74: a zero denominator first, then the rounded quotient narrowed. The unit run by itself: log entry 5. -/
def Obligations.RdivRoundsThenNarrows : Prop :=
  (∀ (s : State) m w, s.wires.b256 = 0 → Yields (.rdiv m w) s (.fail .divisionByZero)) ∧
  (∀ (s : State) m w, s.wires.b256 ≠ 0 →
    ∃ q, q = (if m = .up ∧ s.wires.a256.toNat % s.wires.b256.toNat ≠ 0 then s.wires.a256.toNat / s.wires.b256.toNat + 1
        else s.wires.a256.toNat / s.wires.b256.toNat) ∧
      (w = .w64 → q < 2 ^ 64 → ∃ v, Yields (.rdiv m w) s (.ok (.amount v)) ∧ v.toNat = q) ∧
      (w = .w128 → q < 2 ^ 128 → ∃ v, Yields (.rdiv m w) s (.ok (.native v)) ∧ v.toNat = q) ∧
      (2 ^ w.bits ≤ q → Yields (.rdiv m w) s (.fail .resultOverflow))) ∧
  (∀ u m w, decodeLabel u = .ok (.rdiv m w) ↔
    u.extractLsb' 0 4 = 0b0011#4 ∧ (u.getLsbD 4 = true ↔ m = .up) ∧ (u.getLsbD 5 = true ↔ w = .w128))

/-- R72: rounding up is D0's ceiling formula on naturals, and the rounded quotient of a WideValue is one; the sum wrapped
to 256 bits would give another answer. -/
def Obligations.RoundingUpIsTheCeiling : Prop :=
  (∀ n d, 0 < d → roundedQuotient n d .up = (n + d - 1) / d) ∧
  (∀ n d, 0 < d → roundedQuotient n d .down = n / d) ∧
  (∀ n d m, 0 < d → n < 2 ^ 256 → roundedQuotient n d m < 2 ^ 256) ∧
  (∃ n d, n < 2 ^ 256 ∧ d < 2 ^ 256 ∧ 0 < d ∧ (n + d - 1) % 2 ^ 256 / d ≠ roundedQuotient n d .up)

/-- R75: the laws of the rounded quotient, and what narrowing makes of them. -/
def Obligations.DivisionLaws : Prop :=
  (∀ n d, 0 < d →
    roundedQuotient n d .down ≤ roundedQuotient n d .up ∧
    roundedQuotient n d .up ≤ roundedQuotient n d .down + 1 ∧
    (roundedQuotient n d .up = roundedQuotient n d .down ↔ d ∣ n) ∧
    d * roundedQuotient n d .down ≤ n ∧ n < d * (roundedQuotient n d .down + 1) ∧
    (0 < n → d * (roundedQuotient n d .up - 1) < n ∧ n ≤ d * roundedQuotient n d .up) ∧
    (n = 0 → roundedQuotient n d .up = 0)) ∧
  (∀ n n' d m, 0 < d → n ≤ n' → roundedQuotient n d m ≤ roundedQuotient n' d m) ∧
  (∀ n d d' m, 0 < d → d ≤ d' → roundedQuotient n d' m ≤ roundedQuotient n d m) ∧
  (∀ n d w v, (rdiv n d .up w).outcome = .ok v → ∃ v', (rdiv n d .down w).outcome = .ok v') ∧
  (∀ w, ∃ n d v, (rdiv n d .down w).outcome = .ok v ∧ v.toNat = 2 ^ w.bits - 1 ∧ n.toNat % d.toNat ≠ 0 ∧
    (rdiv n d .up w).outcome = .error .resultOverflow)

/-! ## The four conversions -/

/-- R81 to R83: `DELTA_A` completes on all operands with the closed form of R82 and R83; everything else is unchanged. -/
def Obligations.DeltaAAnswersItsClosedForm : Prop :=
  ∀ m p0 p1 liq s, Answers (.deltaA m p0 p1 liq) s (deltaAResponse m p0 p1 liq)

/-- R85, R86: `DELTA_B` likewise, on the parameter `B_SHIFT` (decision D7, log entry 8). -/
def Obligations.DeltaBAnswersItsClosedForm : Prop :=
  ∀ m p0 p1 liq s, Answers (.deltaB m p0 p1 liq) s (deltaBResponse m p0 p1 liq)

/-- R88, R89: `LIQ_A` likewise. -/
def Obligations.LiqAAnswersItsClosedForm : Prop :=
  ∀ m p0 p1 amount s, Answers (.liqA m p0 p1 amount) s (liqAResponse m p0 p1 amount)

/-- R92, R93: `LIQ_B` likewise, on `B_SHIFT` (decision D7, log entry 8); the value always fits 128 bits. -/
def Obligations.LiqBAnswersItsClosedForm : Prop :=
  ∀ m p0 p1 amount s, Answers (.liqB m p0 p1 amount) s (liqBResponse m p0 p1 amount) ∧
    (p0 ≠ p1 → rounded m (amount.toNat * 2 ^ Config.bShift) (gap p0 p1) < 2 ^ 128)

/-- R82: the zero short-cut comes before every other test. -/
def Obligations.ZeroShortCutComesFirst : Prop :=
  ∀ m p0 p1 liq s, p0 = p1 ∨ liq = 0 → Answers (.deltaA m p0 p1 liq) s (.ok 0)

/-- R84 (1): where the `Up` call has a value so has the `Down` call, at most it and at least it less one; the converse fails. -/
def Obligations.FloorAtMostCeiling : Prop :=
  (∀ p0 p1 liq s u, responseOf (exec (.deltaA .up p0 p1 liq) s) = some (.ok u) →
    ∃ d, responseOf (exec (.deltaA .down p0 p1 liq) s) = some (.ok d) ∧ d.toNat ≤ u.toNat ∧ u.toNat ≤ d.toNat + 1) ∧
  (∃ p0 p1 liq, ∀ s, Answers (.deltaA .down p0 p1 liq) s (.ok (BitVec.ofNat 128 (2 ^ 64 - 1))) ∧
    Answers (.deltaA .up p0 p1 liq) s (.err .resultOverflow))

/-- R84 (2): more liquidity never gives less, and a failure never turns back into a value. -/
def Obligations.DeltaAGrowsWithLiquidity : Prop :=
  ∀ m p0 p1 liq liq' s v', liq.toNat ≤ liq'.toNat → responseOf (exec (.deltaA m p0 p1 liq') s) = some (.ok v') →
    ∃ v, responseOf (exec (.deltaA m p0 p1 liq) s) = some (.ok v) ∧ v.toNat ≤ v'.toNat

/-- R94: swapping the prices changes no response. -/
def Obligations.PricesAreSymmetric : Prop :=
  ∀ m p0 p1 liq amount s,
    responseOf (exec (.deltaA m p0 p1 liq) s) = responseOf (exec (.deltaA m p1 p0 liq) s) ∧
    responseOf (exec (.deltaB m p0 p1 liq) s) = responseOf (exec (.deltaB m p1 p0 liq) s) ∧
    responseOf (exec (.liqA m p0 p1 amount) s) = responseOf (exec (.liqA m p1 p0 amount) s) ∧
    responseOf (exec (.liqB m p0 p1 amount) s) = responseOf (exec (.liqB m p1 p0 amount) s)

/-- R91, corrected by 90 C3: the round trip through an amount of token A, in both roundings, with its error bound
`p0 * p1 / (|p1 - p0| * 2^64)`. -/
def Obligations.RoundTripThroughAmountA : Prop :=
  ∀ p0 p1 liq s a l, p0 ≠ p1 → p0 ≠ 0 → p1 ≠ 0 →
    (responseOf (exec (.deltaA .up p0 p1 liq) s) = some (.ok a) →
      responseOf (exec (.liqA .down p0 p1 (a.setWidth 64)) s) = some (.ok l) →
      liq.toNat ≤ l.toNat ∧ (l.toNat - liq.toNat) * (gap p0 p1 * 2 ^ 64) < p0.toNat * p1.toNat) ∧
    (responseOf (exec (.deltaA .down p0 p1 liq) s) = some (.ok a) →
      responseOf (exec (.liqA .up p0 p1 (a.setWidth 64)) s) = some (.ok l) →
      l.toNat ≤ liq.toNat ∧ (liq.toNat - l.toNat) * (gap p0 p1 * 2 ^ 64) < p0.toNat * p1.toNat)

/-- R93's last paragraph: the round trip through an amount of token B, on `B_SHIFT` through the two commands
(decision D7, log entry 8). -/
def Obligations.RoundTripThroughAmountB : Prop :=
  ∀ p0 p1 liq s a l, p0 ≠ p1 →
    (responseOf (exec (.deltaB .up p0 p1 liq) s) = some (.ok a) →
      responseOf (exec (.liqB .down p0 p1 (a.setWidth 64)) s) = some (.ok l) → liq.toNat ≤ l.toNat) ∧
    (responseOf (exec (.deltaB .down p0 p1 liq) s) = some (.ok a) →
      responseOf (exec (.liqB .up p0 p1 (a.setWidth 64)) s) = some (.ok l) → l.toNat ≤ liq.toNat)

/-- R97: each command fails only with the failures of its row, and with each of them on some operands; each also succeeds.
For the B side at `B_SHIFT` = 64 (decision D7, log entry 8). -/
def Obligations.CommandsFailAsTheTableSays : Prop :=
  (∀ m p0 p1 liq s f, responseOf (exec (.deltaA m p0 p1 liq) s) = some (.err f) →
    f = .scaleOverflow ∨ f = .resultOverflow ∨ f = .divisionByZero) ∧
  (∀ m p0 p1 liq s f, responseOf (exec (.deltaB m p0 p1 liq) s) = some (.err f) → f = .resultOverflow) ∧
  (∀ m p0 p1 amount s f, responseOf (exec (.liqA m p0 p1 amount) s) = some (.err f) →
    f = .resultOverflow ∨ f = .divisionByZero ∨ f = .overflow) ∧
  (∀ m p0 p1 amount s f, responseOf (exec (.liqB m p0 p1 amount) s) = some (.err f) → f = .divisionByZero) ∧
  (∀ f, f = .scaleOverflow ∨ f = .resultOverflow ∨ f = .divisionByZero →
    ∃ m p0 p1 liq, ∀ s, Answers (.deltaA m p0 p1 liq) s (.err f)) ∧
  (∃ m p0 p1 liq, ∀ s, Answers (.deltaB m p0 p1 liq) s (.err .resultOverflow)) ∧
  (∀ f, f = .resultOverflow ∨ f = .divisionByZero ∨ f = .overflow →
    ∃ m p0 p1 amount, ∀ s, Answers (.liqA m p0 p1 amount) s (.err f)) ∧
  (∃ m p0 p1 amount, ∀ s, Answers (.liqB m p0 p1 amount) s (.err .divisionByZero)) ∧
  (∃ m p0 p1 liq v, ∀ s, Answers (.deltaA m p0 p1 liq) s (.ok v)) ∧
  (∃ m p0 p1 liq v, ∀ s, Answers (.deltaB m p0 p1 liq) s (.ok v)) ∧
  (∃ m p0 p1 amount v, ∀ s, Answers (.liqA m p0 p1 amount) s (.ok v)) ∧
  (∃ m p0 p1 amount v, ∀ s, Answers (.liqB m p0 p1 amount) s (.ok v))

/-- R103: no call, from any state, gets `Underflow`. -/
def Obligations.NoCallReturnsUnderflow : Prop :=
  ∀ (s : State) (c : Command), responseOf (step (s.present c)) ≠ some (.err .underflow)

/-- R110: a zero price is rejected by `DELTA_A` where the division is reached, and accepted everywhere else. -/
def Obligations.ZeroPricesAreRejectedOnlyAtADivision : Prop :=
  (∀ m p liq s, p ≠ 0 → liq ≠ 0 → liq.toNat * p.toNat < 2 ^ 192 →
    Answers (.deltaA m 0 p liq) s (.err .divisionByZero) ∧ Answers (.deltaA m p 0 liq) s (.err .divisionByZero)) ∧
  (∀ m p s, Answers (.deltaA m 0 p 0) s (.ok 0) ∧ Answers (.deltaA m p 0 0) s (.ok 0)) ∧
  (∀ m p liq s, responseOf (exec (.deltaB m 0 p liq) s) ≠ some (.err .divisionByZero) ∧
    responseOf (exec (.deltaB m p 0 liq) s) ≠ some (.err .divisionByZero)) ∧
  (∀ m p amount s, p ≠ 0 → Answers (.liqA m 0 p amount) s (.ok 0) ∧ Answers (.liqA m p 0 amount) s (.ok 0)) ∧
  (∀ m p amount s, p ≠ 0 → ∃ v, Answers (.liqB m 0 p amount) s (.ok v) ∧ Answers (.liqB m p 0 amount) s (.ok v))

/-- R95: an amount stands in `result[63:0]`, the upper half is 0. -/
def Obligations.AmountsStandInTheLowHalf : Prop :=
  ∀ m p0 p1 liq s v,
    (responseOf (exec (.deltaA m p0 p1 liq) s) = some (.ok v) → v.extractLsb' 64 64 = 0) ∧
    (responseOf (exec (.deltaB m p0 p1 liq) s) = some (.ok v) → v.extractLsb' 64 64 = 0)

/-- R101, R104, R106: a failing call stops at the micro-operation that raises its failure, whose exact condition holds.
Which nested micro-operations are logged: log entry 7. -/
def Obligations.FailureIsRaisedByTheLastMicroOperation : Prop :=
  ∀ i s t f, isCommand i = true → exec i s = .next t → t.response = some (.err f) →
    ∃ c, t.issued.getLast? = some c ∧ Raises c f

/-- R42, R98: a command issues its program in order and leaves it early only by a failure or by `DELTA_A`'s short-cut.
Which nested micro-operations are logged: log entry 7. -/
def Obligations.CommandsIssueTheirProgramInOrder : Prop :=
  ∀ i s t, isCommand i = true → exec i s = .next t →
    (t.issued.map UnitCall.instr) <+: program i ∧
    (∀ v, t.response = some (.ok v) →
      t.issued.map UnitCall.instr = program i ∨
      (t.issued.map UnitCall.instr = [.absd] ∧ v = 0 ∧
        ∃ m p0 p1 liq, i = .deltaA m p0 p1 liq ∧ (p0 = p1 ∨ liq = 0)))
end

