-- ==== Sys2Proof/Laws/State.lean ====
section
/-! SUPPORT. One lemma per field of State and per update. -/

namespace Sys2Proof.Machine

section
variable (s : State) (v : Native) (f : Failure) (l : List UnitCall) (c : Command) (u : BitVec 6)

@[simp] theorem succeed_ports : (s.succeed v l).ports = s.ports := rfl
@[simp] theorem succeed_response : (s.succeed v l).response = some (.ok v) := rfl
@[simp] theorem succeed_request : (s.succeed v l).request = s.request := rfl
@[simp] theorem succeed_issued : (s.succeed v l).issued = l := rfl
@[simp] theorem succeed_wires : (s.succeed v l).wires = s.wires := rfl
@[simp] theorem succeed_unitOut : (s.succeed v l).unitOut = s.unitOut := rfl

@[simp] theorem failCall_ports : (s.failCall f l).ports = s.ports := rfl
@[simp] theorem failCall_response : (s.failCall f l).response = some (.err f) := rfl
@[simp] theorem failCall_request : (s.failCall f l).request = s.request := rfl
@[simp] theorem failCall_issued : (s.failCall f l).issued = l := rfl
@[simp] theorem failCall_wires : (s.failCall f l).wires = s.wires := rfl
@[simp] theorem failCall_unitOut : (s.failCall f l).unitOut = s.unitOut := rfl

@[simp] theorem accept_ports : s.accept.ports = s.ports := rfl
@[simp] theorem accept_response : s.accept.response = s.response := rfl
@[simp] theorem accept_request : s.accept.request = none := rfl
@[simp] theorem accept_issued : s.accept.issued = s.issued := rfl
@[simp] theorem accept_wires : s.accept.wires = s.wires := rfl
@[simp] theorem accept_unitOut : s.accept.unitOut = s.unitOut := rfl

@[simp] theorem present_ports : (s.present c).ports = c := rfl
@[simp] theorem present_response : (s.present c).response = s.response := rfl
@[simp] theorem present_request : (s.present c).request = some .command := rfl
@[simp] theorem present_issued : (s.present c).issued = s.issued := rfl
@[simp] theorem present_wires : (s.present c).wires = s.wires := rfl
@[simp] theorem present_unitOut : (s.present c).unitOut = s.unitOut := rfl

@[simp] theorem presentLabel_ports : (s.presentLabel u).ports = s.ports := rfl
@[simp] theorem presentLabel_response : (s.presentLabel u).response = s.response := rfl
@[simp] theorem presentLabel_request : (s.presentLabel u).request = some (.label u) := rfl
@[simp] theorem presentLabel_issued : (s.presentLabel u).issued = s.issued := rfl
@[simp] theorem presentLabel_wires : (s.presentLabel u).wires = s.wires := rfl
@[simp] theorem presentLabel_unitOut : (s.presentLabel u).unitOut = s.unitOut := rfl

/-- What is presented after a command is presented: that command, whatever was presented before. -/
@[simp] theorem presented_present : (s.present c).presented = some (.ok (decodeCommand c)) := rfl
@[simp] theorem presented_presentLabel : (s.presentLabel u).presented = some (decodeLabel u) := rfl

theorem presented_of_idle {s : State} (h : s.request = none) : s.presented = none := by
  simp [State.presented, h]

theorem presented_of_command {s : State} (h : s.request = some .command) :
    s.presented = some (.ok (decodeCommand s.ports)) := by
  simp [State.presented, h]

theorem presented_of_label {s : State} {u : BitVec 6} (h : s.request = some (.label u)) :
    s.presented = some (decodeLabel u) := by
  simp [State.presented, h]

end

end Sys2Proof.Machine
end

