-- ==== Sys2Proof/Laws/Run.lean ====
section
/-! SUPPORT. What the sequencing operations do with the log and the outcome. -/

namespace Sys2Proof.Machine

section
variable {α β : Type}

@[simp] theorem Run.ok_issued (v : α) : (Run.ok v).issued = [] := rfl
@[simp] theorem Run.ok_outcome (v : α) : (Run.ok v).outcome = .ok v := rfl
@[simp] theorem Run.fail_issued (f : Failure) : (Run.fail f : Run α).issued = [] := rfl
@[simp] theorem Run.fail_outcome (f : Failure) : (Run.fail f : Run α).outcome = .error f := rfl
@[simp] theorem Run.issue_issued (c : UnitCall) (r : Run α) : (Run.issue c r).issued = c :: r.issued := rfl
@[simp] theorem Run.issue_outcome (c : UnitCall) (r : Run α) : (Run.issue c r).outcome = r.outcome := rfl
@[simp] theorem Run.map_issued (g : α → β) (r : Run α) : (r.map g).issued = r.issued := rfl

@[simp] theorem Run.bind_mk_ok (l : List UnitCall) (v : α) (k : α → Run β) :
    Run.bind ⟨l, .ok v⟩ k = ⟨l ++ (k v).issued, (k v).outcome⟩ := rfl

@[simp] theorem Run.bind_mk_error (l : List UnitCall) (f : Failure) (k : α → Run β) :
    Run.bind ⟨l, .error f⟩ k = ⟨l, .error f⟩ := rfl

theorem Run.bind_of_ok {r : Run α} {v : α} (h : r.outcome = .ok v) (k : α → Run β) :
    r.bind k = ⟨r.issued ++ (k v).issued, (k v).outcome⟩ := by
  simp only [Run.bind, h]

theorem Run.bind_of_error {r : Run α} {f : Failure} (h : r.outcome = .error f) (k : α → Run β) :
    r.bind k = ⟨r.issued, .error f⟩ := by
  simp only [Run.bind, h]

theorem Run.map_of_ok {r : Run α} {v : α} (h : r.outcome = .ok v) (g : α → β) :
    (r.map g).outcome = .ok (g v) := by
  simp only [Run.map, h]

theorem Run.map_of_error {r : Run α} {f : Failure} (h : r.outcome = .error f) (g : α → β) :
    (r.map g).outcome = .error f := by
  simp only [Run.map, h]

/-- A sequence ends with a value only if its first part does. -/
theorem Run.bind_ok_cases {r : Run α} {k : α → Run β} {b : β} (h : (r.bind k).outcome = .ok b) :
    ∃ v, r.outcome = .ok v ∧ (k v).outcome = .ok b := by
  cases hr : r.outcome with
  | ok v => exact ⟨v, rfl, by simpa only [Run.bind_of_ok hr] using h⟩
  | error f => rw [Run.bind_of_error hr] at h; cases h

/-- A sequence fails in its first part or in the rest of it. -/
theorem Run.bind_error_cases {r : Run α} {k : α → Run β} {f : Failure} (h : (r.bind k).outcome = .error f) :
    r.outcome = .error f ∨ ∃ v, r.outcome = .ok v ∧ (k v).outcome = .error f := by
  cases hr : r.outcome with
  | ok v => exact .inr ⟨v, rfl, by simpa only [Run.bind_of_ok hr] using h⟩
  | error g => rw [Run.bind_of_error hr] at h; cases h; exact .inl rfl

end

/-- A call always ends in a next state, which differs in the response and the log only. -/
theorem answer_next (s : State) (r : Run Native) :
    ∃ resp, s.answer r = .next { s with response := some resp, issued := r.issued } := by
  unfold State.answer
  cases r.outcome with
  | ok v => exact ⟨.ok v, rfl⟩
  | error f => exact ⟨.err f, rfl⟩

theorem answer_of_ok {r : Run Native} {v : Native} (h : r.outcome = .ok v) (s : State) :
    s.answer r = .next { s with response := some (.ok v), issued := r.issued } := by
  simp only [State.answer, h, State.succeed]

theorem answer_of_error {r : Run Native} {f : Failure} (h : r.outcome = .error f) (s : State) :
    s.answer r = .next { s with response := some (.err f), issued := r.issued } := by
  simp only [State.answer, h, State.failCall]

/-- A unit run by itself always ends in a next state, which differs in `unitOut` only. -/
theorem bench_next {α : Type} (s : State) (r : Run α) (value : α → UnitValue) :
    ∃ o, s.bench r value = .next { s with unitOut := some o } := by
  unfold State.bench
  cases r.outcome with
  | ok v => exact ⟨.ok (value v), rfl⟩
  | error f => exact ⟨.fail f, rfl⟩

theorem bench_of_ok {α : Type} {r : Run α} {v : α} (h : r.outcome = .ok v) (s : State) (value : α → UnitValue) :
    s.bench r value = .next { s with unitOut := some (.ok (value v)) } := by
  simp only [State.bench, h]

theorem bench_of_error {α : Type} {r : Run α} {f : Failure} (h : r.outcome = .error f) (s : State) (value : α → UnitValue) :
    s.bench r value = .next { s with unitOut := some (.fail f) } := by
  simp only [State.bench, h]

end Sys2Proof.Machine
end

