-- ==== Sys2Proof/Laws/Units.lean ====
section
/-! SUPPORT. Each unit: what it issues, how it ends, and its value as a number. Callers cite these and never unfold a unit. -/

namespace Sys2Proof.Machine

open Sys2Proof.Safety

/-! The absolute difference. -/

theorem gap_lt (a b : Native) : gap a b < 2 ^ 128 := by
  have ha := a.isLt
  have hb := b.isLt
  unfold gap
  omega

theorem gap_eq_zero (a b : Native) : gap a b = 0 ↔ a = b := by
  constructor
  · intro h
    apply BitVec.eq_of_toNat_eq
    unfold gap at h
    omega
  · rintro rfl
    unfold gap
    omega

theorem gap_comm (a b : Native) : gap a b = gap b a := by
  unfold gap
  omega

/-- `|p1 − p0|` as the value `ABSD` returns. -/
def gapBits (a b : Native) : Native := BitVec.ofNat 128 (gap a b)

@[simp] theorem toNat_gapBits (a b : Native) : (gapBits a b).toNat = gap a b := by
  unfold gapBits
  rw [BitVec.toNat_ofNat]
  exact Nat.mod_eq_of_lt (gap_lt a b)

/-- Everything `ABSD` does. -/
theorem absd_eq (a b : Native) : absd a b = ⟨[.absd a b], .ok (gapBits a b)⟩ := by
  unfold absd gapBits
  split
  · have h : gap a b = a.toNat - b.toNat := by unfold gap; omega
    rw [h]
    rfl
  · have h : gap a b = b.toNat - a.toNat := by unfold gap; omega
    rw [h]
    rfl

/-! The multiplier. -/

theorem mul_toNat_lt (a b : Native) : a.toNat * b.toNat < 2 ^ 256 := by
  calc a.toNat * b.toNat < 2 ^ 128 * 2 ^ 128 := Nat.mul_lt_mul'' a.isLt b.isLt
    _ = 2 ^ 256 := by norm_num

/-- A product as the value `FMUL` returns. -/
def productBits (a b : Native) : Wide := BitVec.ofNat 256 (a.toNat * b.toNat)

@[simp] theorem toNat_productBits (a b : Native) : (productBits a b).toNat = a.toNat * b.toNat := by
  unfold productBits
  rw [BitVec.toNat_ofNat]
  exact Nat.mod_eq_of_lt (mul_toNat_lt a b)

/-- Everything `FMUL` does. -/
theorem fmul_eq (a b : Native) : fmul a b = ⟨[.fmul a b], .ok (productBits a b)⟩ := rfl

/-! Comparison, raw shift and checked shift. -/

theorem scaleLimit_toNat : Config.scaleLimit.toNat = 2 ^ 192 := by decide

theorem scaleFactor_toNat : Config.scaleFactor.toNat = 2 ^ 64 := by decide

theorem bDivisor_toNat : Config.bDivisor.toNat = 2 ^ Config.bShift := by decide

theorem bFactor_toNat : Config.bFactor.toNat = 2 ^ Config.bShift := by decide

/-- Everything `WCMP` does. -/
theorem wcmp_eq (a b : Wide) : wcmp a b = ⟨[.wcmp a b], .ok (order a b)⟩ := rfl

/-- The overflow wire is the non-strict comparison with the limit. -/
theorem ovf_order (a b : Wide) : ovf (order a b) = decide (b.toNat ≤ a.toNat) := by
  unfold ovf order
  split
  · have h : b.toNat ≤ a.toNat := by omega
    simp [h]
  · split
    · have h : ¬ b.toNat ≤ a.toNat := by omega
      simp [h]
    · have h : b.toNat ≤ a.toNat := by omega
      simp [h]

/-- A shifted value as `WSHL` returns it. -/
def shiftBits (v : Wide) : Wide := BitVec.ofNat 256 (v.toNat * 2 ^ 64)

theorem toNat_shiftBits (v : Wide) : (shiftBits v).toNat = v.toNat * 2 ^ 64 % 2 ^ 256 := BitVec.toNat_ofNat _ _

/-- Below `2^192` the shift is exact. -/
theorem toNat_shiftBits_of_lt {v : Wide} (h : v.toNat < 2 ^ 192) : (shiftBits v).toNat = v.toNat * 2 ^ 64 := by
  rw [toNat_shiftBits]
  exact Nat.mod_eq_of_lt (by omega)

/-- Everything `WSHL` does. -/
theorem wshl_eq (v : Wide) : wshl v = ⟨[.wshl v], .ok (shiftBits v)⟩ := rfl

/-- Below the limit the checked shift is exact. -/
theorem cshl_of_lt {v : Wide} (h : v.toNat < 2 ^ 192) :
    cshl v = ⟨[.cshl v, .wcmp v Config.scaleLimit, .wshl v], .ok (shiftBits v)⟩ := by
  have h' : ovf (order v Config.scaleLimit) = false := by
    rw [ovf_order, scaleLimit_toNat]
    simpa using h
  unfold cshl
  rw [wcmp_eq, Run.bind_mk_ok, h']
  rfl

/-- From the limit on it fails, and nothing is shifted. -/
theorem cshl_of_le {v : Wide} (h : 2 ^ 192 ≤ v.toNat) :
    cshl v = ⟨[.cshl v, .wcmp v Config.scaleLimit], .error .scaleOverflow⟩ := by
  have h' : ovf (order v Config.scaleLimit) = true := by
    rw [ovf_order, scaleLimit_toNat]
    simpa using h
  unfold cshl
  rw [wcmp_eq, Run.bind_mk_ok, h']
  rfl

/-! Narrowing, wide multiplication, subtraction, addition. -/

theorem wnar_of_lt {v : Wide} {w : OutWidth} (h : v.toNat < 2 ^ w.bits) :
    wnar v w = ⟨[.wnar v w], .ok (BitVec.ofNat w.bits v.toNat)⟩ := by
  have h' : tooWide v.toNat w.bits = false := by
    unfold tooWide
    simp only [decide_eq_false_iff_not]
    omega
  unfold wnar
  rw [h']
  rfl

theorem wnar_of_le {v : Wide} {w : OutWidth} (h : 2 ^ w.bits ≤ v.toNat) :
    wnar v w = ⟨[.wnar v w], .error .overflow⟩ := by
  have h' : tooWide v.toNat w.bits = true := by
    have := Nat.two_pow_pos w.bits
    unfold tooWide
    simp only [decide_eq_true_eq]
    omega
  unfold wnar
  rw [h']
  rfl

/-- A product as the value `WMUL` returns when it fits. -/
def wideProductBits (a : Wide) (b : Amount) : Wide := BitVec.ofNat 256 (a.toNat * b.toNat)

theorem toNat_wideProductBits {a : Wide} {b : Amount} (h : a.toNat * b.toNat < 2 ^ 256) :
    (wideProductBits a b).toNat = a.toNat * b.toNat := by
  unfold wideProductBits
  rw [BitVec.toNat_ofNat]
  exact Nat.mod_eq_of_lt h

theorem wmul_of_lt {a : Wide} {b : Amount} (h : a.toNat * b.toNat < 2 ^ 256) :
    wmul a b = ⟨[.wmul a b], .ok (wideProductBits a b)⟩ := by
  unfold wmul wideProductBits
  rw [if_neg (Nat.not_le.mpr h)]
  rfl

theorem wmul_of_le {a : Wide} {b : Amount} (h : 2 ^ 256 ≤ a.toNat * b.toNat) :
    wmul a b = ⟨[.wmul a b], .error .overflow⟩ := by
  unfold wmul
  rw [if_pos h]
  rfl

theorem wsub_of_le {a b : Wide} (h : b.toNat ≤ a.toNat) :
    wsub a b = ⟨[.wsub a b], .ok (BitVec.ofNat 256 (a.toNat - b.toNat))⟩ := by
  unfold wsub
  rw [if_neg (by omega)]
  rfl

theorem wsub_of_lt {a b : Wide} (h : a.toNat < b.toNat) :
    wsub a b = ⟨[.wsub a b], .error .underflow⟩ := by
  unfold wsub
  rw [if_pos h]
  rfl

/-- Everything `WADD` does. -/
theorem wadd_eq (a b : Wide) :
    wadd a b = ⟨[.wadd a b], .ok (carry a b, BitVec.ofNat 256 (a.toNat + b.toNat))⟩ := rfl

/-! The divider. -/

/-- Rounding never adds more than one, and nothing when the denominator is 1 (R72). -/
theorem roundedQuotient_le (n d : Nat) (m : RoundingMode) : roundedQuotient n d m ≤ n / d + 1 := by
  unfold roundedQuotient
  split
  · omega
  · split <;> omega

/-- The rounded quotient of a WideValue is a WideValue (R72). -/
theorem roundedQuotient_le_numerator {n d : Nat} (m : RoundingMode) (hd : 0 < d) : roundedQuotient n d m ≤ n := by
  unfold roundedQuotient
  cases m with
  | down => exact Nat.div_le_self n d
  | up =>
    have hdm := Nat.div_add_mod n d
    dsimp only
    split
    · have : n / d ≤ d * (n / d) := Nat.le_mul_of_pos_left _ hd
      omega
    · exact Nat.div_le_self n d

theorem rdiv_of_zero {n d : Wide} {m : RoundingMode} {w : OutWidth} (h : d.toNat = 0) :
    rdiv n d m w = ⟨[.rdiv n d m w], .error .divisionByZero⟩ := by
  unfold rdiv
  rw [if_pos h]
  rfl

theorem toNat_ofNat_roundedQuotient (n : Wide) {d : Nat} (m : RoundingMode) (hd : 0 < d) :
    (BitVec.ofNat 256 (roundedQuotient n.toNat d m)).toNat = roundedQuotient n.toNat d m := by
  rw [BitVec.toNat_ofNat]
  exact Nat.mod_eq_of_lt (Nat.lt_of_le_of_lt (roundedQuotient_le_numerator m hd) n.isLt)

theorem rdiv_of_lt {n d : Wide} {m : RoundingMode} {w : OutWidth} (hd : d.toNat ≠ 0)
    (h : roundedQuotient n.toNat d.toNat m < 2 ^ w.bits) :
    rdiv n d m w =
      ⟨[.rdiv n d m w, .wnar (BitVec.ofNat 256 (roundedQuotient n.toNat d.toNat m)) w],
        .ok (BitVec.ofNat w.bits (roundedQuotient n.toNat d.toNat m))⟩ := by
  have hq := toNat_ofNat_roundedQuotient n m (Nat.pos_of_ne_zero hd)
  unfold rdiv
  rw [if_neg hd, wnar_of_lt (by rw [hq]; exact h), hq]
  rfl

theorem rdiv_of_le {n d : Wide} {m : RoundingMode} {w : OutWidth} (hd : d.toNat ≠ 0)
    (h : 2 ^ w.bits ≤ roundedQuotient n.toNat d.toNat m) :
    rdiv n d m w =
      ⟨[.rdiv n d m w, .wnar (BitVec.ofNat 256 (roundedQuotient n.toNat d.toNat m)) w],
        .error .resultOverflow⟩ := by
  have hq := toNat_ofNat_roundedQuotient n m (Nat.pos_of_ne_zero hd)
  unfold rdiv
  rw [if_neg hd, wnar_of_le (by rw [hq]; exact h)]
  rfl

/-- Everything `RDIV` can do, with `q` the rounded quotient as the WideValue its `WNAR` narrows. -/
theorem rdiv_cases (n d : Wide) (m : RoundingMode) (w : OutWidth) :
    (d.toNat = 0 ∧ rdiv n d m w = ⟨[.rdiv n d m w], .error .divisionByZero⟩) ∨
    (d.toNat ≠ 0 ∧ ∃ q : Wide, q.toNat = roundedQuotient n.toNat d.toNat m ∧
      ((q.toNat < 2 ^ w.bits ∧ rdiv n d m w = ⟨[.rdiv n d m w, .wnar q w], .ok (BitVec.ofNat w.bits q.toNat)⟩) ∨
       (2 ^ w.bits ≤ q.toNat ∧ rdiv n d m w = ⟨[.rdiv n d m w, .wnar q w], .error .resultOverflow⟩))) := by
  by_cases hd : d.toNat = 0
  · exact .inl ⟨hd, rdiv_of_zero hd⟩
  · have hq := toNat_ofNat_roundedQuotient n m (Nat.pos_of_ne_zero hd)
    refine .inr ⟨hd, BitVec.ofNat 256 (roundedQuotient n.toNat d.toNat m), hq, ?_⟩
    rw [hq]
    rcases Nat.lt_or_ge (roundedQuotient n.toNat d.toNat m) (2 ^ w.bits) with h | h
    · exact .inl ⟨h, rdiv_of_lt hd h⟩
    · exact .inr ⟨h, rdiv_of_le hd h⟩

end Sys2Proof.Machine
end

