-- ==== Sys2Proof/Laws/Commands.lean ====
section
/-! SUPPORT. What exec and step can do, once for all instructions. -/

namespace Sys2Proof.Machine

open Sys2Proof.Safety

/-! Each instruction as the shared operation it is an instance of. -/

theorem exec_deltaA (m : RoundingMode) (p0 p1 liq : Native) (s : State) :
    exec (.deltaA m p0 p1 liq) s = s.answer ((deltaA m p0 p1 liq).map placeAmount) := rfl

theorem exec_deltaB (m : RoundingMode) (p0 p1 liq : Native) (s : State) :
    exec (.deltaB m p0 p1 liq) s = s.answer ((deltaB m p0 p1 liq).map placeAmount) := rfl

theorem exec_liqA (m : RoundingMode) (p0 p1 : Native) (amount : Amount) (s : State) :
    exec (.liqA m p0 p1 amount) s = s.answer ((liqA m p0 p1 amount).map placeLiquidity) := rfl

theorem exec_liqB (m : RoundingMode) (p0 p1 : Native) (amount : Amount) (s : State) :
    exec (.liqB m p0 p1 amount) s = s.answer ((liqB m p0 p1 amount).map placeLiquidity) := rfl

theorem exec_absd (s : State) : exec .absd s = s.bench (absd s.wires.a128 s.wires.b128) .native := rfl

theorem exec_fmul (s : State) : exec .fmul s = s.bench (fmul s.wires.a128 s.wires.b128) .wide := rfl

theorem exec_cshl (s : State) : exec .cshl s = s.bench (cshl s.wires.a256) .wide := rfl

theorem exec_rdiv (m : RoundingMode) (w : OutWidth) (s : State) :
    exec (.rdiv m w) s = s.bench (rdiv s.wires.a256 s.wires.b256 m w) (narrowed w) := rfl

theorem exec_wadd (s : State) :
    exec .wadd s = s.bench (wadd s.wires.a256 s.wires.b256) (fun r => .sum r.1 r.2) := rfl

theorem exec_wsub (s : State) : exec .wsub s = s.bench (wsub s.wires.a256 s.wires.b256) .wide := rfl

theorem exec_wcmp (s : State) : exec .wcmp s = s.bench (wcmp s.wires.a256 s.wires.b256) .order := rfl

theorem exec_wshl (s : State) : exec .wshl s = s.bench (wshl s.wires.a256) .wide := rfl

theorem exec_wnar (w : OutWidth) (s : State) :
    exec (.wnar w) s = s.bench (wnar s.wires.a256 w) (narrowed w) := rfl

theorem exec_wmul (s : State) : exec .wmul s = s.bench (wmul s.wires.a256 s.wires.b64) .wide := rfl

/-- A command always ends in a next state that differs in the response and the log only. -/
theorem exec_command {i : Instr} (h : isCommand i = true) (s : State) :
    ∃ resp issued, exec i s = .next { s with response := some resp, issued := issued } := by
  cases i with
  | deltaA m p0 p1 liq => exact (answer_next s _).imp fun _ hr => ⟨_, hr⟩
  | deltaB m p0 p1 liq => exact (answer_next s _).imp fun _ hr => ⟨_, hr⟩
  | liqA m p0 p1 amount => exact (answer_next s _).imp fun _ hr => ⟨_, hr⟩
  | liqB m p0 p1 amount => exact (answer_next s _).imp fun _ hr => ⟨_, hr⟩
  | _ => cases h

/-- A unit run by itself always ends in a next state that differs in `unitOut` only. -/
theorem exec_unit {i : Instr} (h : isCommand i = false) (s : State) :
    ∃ o, exec i s = .next { s with unitOut := some o } := by
  cases i with
  | deltaA m p0 p1 liq => cases h
  | deltaB m p0 p1 liq => cases h
  | liqA m p0 p1 amount => cases h
  | liqB m p0 p1 amount => cases h
  | absd => rw [exec_absd]; exact bench_next s _ _
  | fmul => rw [exec_fmul]; exact bench_next s _ _
  | cshl => rw [exec_cshl]; exact bench_next s _ _
  | rdiv m w => rw [exec_rdiv]; exact bench_next s _ _
  | wadd => rw [exec_wadd]; exact bench_next s _ _
  | wsub => rw [exec_wsub]; exact bench_next s _ _
  | wcmp => rw [exec_wcmp]; exact bench_next s _ _
  | wshl => rw [exec_wshl]; exact bench_next s _ _
  | wnar w => rw [exec_wnar]; exact bench_next s _ _
  | wmul => rw [exec_wmul]; exact bench_next s _ _

/-- A command record always decodes to a command. -/
theorem isCommand_decodeCommand (c : Command) : isCommand (decodeCommand c) = true := by
  unfold decodeCommand
  split <;> rfl

/-- A label never decodes to a command. -/
theorem not_isCommand_decodeLabel {u : BitVec 6} {i : Instr} (h : decodeLabel u = .ok i) : isCommand i = false := by
  unfold decodeLabel at h
  split at h <;> cases h <;> rfl

theorem step_of_idle {s : State} (h : s.request = none) : step s = .next s := by
  simp only [step, presented_of_idle h]

theorem step_of_command {s : State} (h : s.request = some .command) :
    step s = exec (decodeCommand s.ports) s.accept := by
  simp only [step, presented_of_command h]

theorem step_present (s : State) (c : Command) : step (s.present c) = exec (decodeCommand c) (s.present c).accept := by
  simp only [step, presented_present]

theorem step_of_label {s : State} {u : BitVec 6} {i : Instr} (h : s.request = some (.label u))
    (hd : decodeLabel u = .ok i) : step s = exec i s.accept := by
  simp only [step, presented_of_label h, hd]

/-- Everything a step can do: nothing, answer a command, or run a unit by itself. -/
theorem step_cases {s t : State} (h : step s = .next t) :
    (s.request = none ∧ t = s) ∨
    (s.request = some .command ∧ exec (decodeCommand s.ports) s.accept = .next t ∧
      ∃ resp issued, t = { s.accept with response := some resp, issued := issued }) ∨
    (∃ u i o, s.request = some (.label u) ∧ decodeLabel u = .ok i ∧ t = { s.accept with unitOut := some o }) := by
  cases hr : s.request with
  | none =>
    rw [step_of_idle hr] at h
    injection h with h
    exact .inl ⟨rfl, h.symm⟩
  | some r =>
    cases r with
    | command =>
      rw [step_of_command hr] at h
      obtain ⟨resp, issued, he⟩ := exec_command (isCommand_decodeCommand s.ports) s.accept
      rw [he] at h
      injection h with ht
      exact .inr (.inl ⟨rfl, by rw [he, ht], resp, issued, ht.symm⟩)
    | label u =>
      cases hd : decodeLabel u with
      | ok i =>
        rw [step_of_label hr hd] at h
        obtain ⟨o, he⟩ := exec_unit (not_isCommand_decodeLabel hd) s.accept
        rw [he] at h
        injection h with ht
        exact .inr (.inr ⟨u, i, o, rfl, hd, ht.symm⟩)
      | error e =>
        simp only [step, presented_of_label hr, hd] at h
        cases h

end Sys2Proof.Machine
end

