-- ==== Sys2Proof/Laws/Conversions.lean ====
section
/-! SUPPORT. Each conversion reduced, once, to its short cases: what it issues up to its division, and that division. -/

namespace Sys2Proof.Machine

open Sys2Proof.Safety

theorem nothingToConvert_iff (p0 p1 liq : Native) :
    nothingToConvert (gapBits p0 p1) liq = true ↔ p0 = p1 ∨ liq = 0 := by
  have h : gapBits p0 p1 = 0 ↔ p0 = p1 := by
    constructor
    · intro h
      have h' : (gapBits p0 p1).toNat = 0 := by rw [h]; rfl
      exact (gap_eq_zero p0 p1).1 (by rw [← toNat_gapBits, h'])
    · intro h
      exact BitVec.eq_of_toNat_eq (by rw [toNat_gapBits, (gap_eq_zero p0 p1).2 h]; rfl)
  unfold nothingToConvert
  rw [Bool.or_eq_true, beq_iff_eq, beq_iff_eq, h]

/-- R81 (a): the short-cut issues the difference alone. -/
theorem deltaA_shortCut {m : RoundingMode} {p0 p1 liq : Native} (h : p0 = p1 ∨ liq = 0) :
    deltaA m p0 p1 liq = ⟨[.absd p0 p1], .ok 0⟩ := by
  unfold deltaA
  rw [absd_eq, Run.bind_mk_ok, if_pos ((nothingToConvert_iff p0 p1 liq).2 h)]
  rfl

/-- R81 (c), failing: the call ends at the comparison. -/
theorem deltaA_scaleOverflow {m : RoundingMode} {p0 p1 liq : Native} (h : ¬ (p0 = p1 ∨ liq = 0))
    (hs : 2 ^ 192 ≤ liq.toNat * gap p0 p1) :
    deltaA m p0 p1 liq =
      ⟨[.absd p0 p1, .fmul liq (gapBits p0 p1), .cshl (productBits liq (gapBits p0 p1)),
        .wcmp (productBits liq (gapBits p0 p1)) Config.scaleLimit], .error .scaleOverflow⟩ := by
  have hp : 2 ^ 192 ≤ (productBits liq (gapBits p0 p1)).toNat := by
    rw [toNat_productBits, toNat_gapBits]
    exact hs
  unfold deltaA
  rw [absd_eq, Run.bind_mk_ok, if_neg (mt (nothingToConvert_iff p0 p1 liq).1 h), fmul_eq, Run.bind_mk_ok, cshl_of_le hp]
  rfl

/-- The numerator of `DELTA_A`'s division is exact when nothing is lost by the shift. -/
theorem toNat_deltaA_numerator {p0 p1 liq : Native} (hs : liq.toNat * gap p0 p1 < 2 ^ 192) :
    (shiftBits (productBits liq (gapBits p0 p1))).toNat = liq.toNat * gap p0 p1 * 2 ^ 64 := by
  rw [toNat_shiftBits_of_lt (by rwa [toNat_productBits, toNat_gapBits]), toNat_productBits, toNat_gapBits]

/-- R81 (d), (e): otherwise the call ends as its division ends. -/
theorem deltaA_division {m : RoundingMode} {p0 p1 liq : Native} (h : ¬ (p0 = p1 ∨ liq = 0))
    (hs : liq.toNat * gap p0 p1 < 2 ^ 192) :
    deltaA m p0 p1 liq =
      ⟨[.absd p0 p1, .fmul liq (gapBits p0 p1), .cshl (productBits liq (gapBits p0 p1)),
        .wcmp (productBits liq (gapBits p0 p1)) Config.scaleLimit, .wshl (productBits liq (gapBits p0 p1)), .fmul p0 p1]
          ++ (rdiv (shiftBits (productBits liq (gapBits p0 p1))) (productBits p0 p1) m .w64).issued,
        (rdiv (shiftBits (productBits liq (gapBits p0 p1))) (productBits p0 p1) m .w64).outcome⟩ := by
  have hp : (productBits liq (gapBits p0 p1)).toNat < 2 ^ 192 := by
    rw [toNat_productBits, toNat_gapBits]
    exact hs
  unfold deltaA
  rw [absd_eq, Run.bind_mk_ok, if_neg (mt (nothingToConvert_iff p0 p1 liq).1 h), fmul_eq, Run.bind_mk_ok, cshl_of_lt hp,
    Run.bind_mk_ok, fmul_eq, Run.bind_mk_ok]
  rfl

/-- R85: the call ends as its division ends. -/
theorem deltaB_division (m : RoundingMode) (p0 p1 liq : Native) :
    deltaB m p0 p1 liq =
      ⟨[.absd p0 p1, .fmul liq (gapBits p0 p1)]
          ++ (rdiv (productBits liq (gapBits p0 p1)) Config.bDivisor m .w64).issued,
        (rdiv (productBits liq (gapBits p0 p1)) Config.bDivisor m .w64).outcome⟩ := by
  unfold deltaB
  rw [absd_eq, Run.bind_mk_ok, fmul_eq, Run.bind_mk_ok]
  rfl

/-- R88: a numerator of 257 bits or more ends the call. -/
theorem liqA_overflow {m : RoundingMode} {p0 p1 : Native} {amount : Amount}
    (h : 2 ^ 256 ≤ p0.toNat * p1.toNat * amount.toNat) :
    liqA m p0 p1 amount =
      ⟨[.absd p0 p1, .fmul p0 p1, .wmul (productBits p0 p1) amount], .error .overflow⟩ := by
  have hp : 2 ^ 256 ≤ (productBits p0 p1).toNat * amount.toNat := by
    rw [toNat_productBits]
    exact h
  unfold liqA
  rw [absd_eq, Run.bind_mk_ok, fmul_eq, Run.bind_mk_ok, wmul_of_le hp]
  rfl

/-- The numerator of `LIQ_A` is exact when it fits. -/
theorem toNat_liqA_numerator {p0 p1 : Native} {amount : Amount} (h : p0.toNat * p1.toNat * amount.toNat < 2 ^ 256) :
    (wideProductBits (productBits p0 p1) amount).toNat = p0.toNat * p1.toNat * amount.toNat := by
  rw [toNat_wideProductBits (by rwa [toNat_productBits]), toNat_productBits]

/-- The denominator of `LIQ_A` is exact (R90). -/
theorem toNat_liqA_denominator (p0 p1 : Native) :
    (productBits (gapBits p0 p1) Config.scaleFactor).toNat = gap p0 p1 * 2 ^ 64 := by
  rw [toNat_productBits, toNat_gapBits, scaleFactor_toNat]

/-- R88: otherwise the call ends as its division ends. -/
theorem liqA_division {m : RoundingMode} {p0 p1 : Native} {amount : Amount}
    (h : p0.toNat * p1.toNat * amount.toNat < 2 ^ 256) :
    liqA m p0 p1 amount =
      ⟨[.absd p0 p1, .fmul p0 p1, .wmul (productBits p0 p1) amount, .fmul (gapBits p0 p1) Config.scaleFactor]
          ++ (rdiv (wideProductBits (productBits p0 p1) amount) (productBits (gapBits p0 p1) Config.scaleFactor) m .w128).issued,
        (rdiv (wideProductBits (productBits p0 p1) amount) (productBits (gapBits p0 p1) Config.scaleFactor) m .w128).outcome⟩ := by
  have hp : (productBits p0 p1).toNat * amount.toNat < 2 ^ 256 := by
    rw [toNat_productBits]
    exact h
  have general (factor : Native) :
      ((absd p0 p1).bind fun v0 => (fmul p0 p1).bind fun pp => (wmul pp amount).bind fun num =>
        (fmul v0 factor).bind fun den => rdiv num den m .w128) =
      ⟨[.absd p0 p1, .fmul p0 p1, .wmul (productBits p0 p1) amount, .fmul (gapBits p0 p1) factor]
          ++ (rdiv (wideProductBits (productBits p0 p1) amount) (productBits (gapBits p0 p1) factor) m .w128).issued,
        (rdiv (wideProductBits (productBits p0 p1) amount) (productBits (gapBits p0 p1) factor) m .w128).outcome⟩ := by
    rw [absd_eq, Run.bind_mk_ok, fmul_eq, Run.bind_mk_ok, wmul_of_lt hp, Run.bind_mk_ok, fmul_eq, Run.bind_mk_ok]
    rfl
  exact general Config.scaleFactor

/-- The numerator of `LIQ_B` is exact. -/
theorem toNat_liqB_numerator (amount : Amount) :
    (productBits (zext128 amount) Config.bFactor).toNat = amount.toNat * 2 ^ Config.bShift := by
  have h : (zext128 amount).toNat = amount.toNat := by
    have := amount.isLt
    unfold zext128
    rw [BitVec.toNat_setWidth]
    omega
  rw [toNat_productBits, bFactor_toNat, h]

/-- The denominator of `LIQ_B` is exact. -/
theorem toNat_liqB_denominator (p0 p1 : Native) : (zext256 (gapBits p0 p1)).toNat = gap p0 p1 := by
  have := gap_lt p0 p1
  unfold zext256
  rw [BitVec.toNat_setWidth, toNat_gapBits]
  omega

/-- R92: the call ends as its division ends. -/
theorem liqB_division (m : RoundingMode) (p0 p1 : Native) (amount : Amount) :
    liqB m p0 p1 amount =
      ⟨[.absd p0 p1, .fmul (zext128 amount) Config.bFactor]
          ++ (rdiv (productBits (zext128 amount) Config.bFactor) (zext256 (gapBits p0 p1)) m .w128).issued,
        (rdiv (productBits (zext128 amount) Config.bFactor) (zext256 (gapBits p0 p1)) m .w128).outcome⟩ := by
  unfold liqB
  rw [absd_eq, Run.bind_mk_ok, fmul_eq, Run.bind_mk_ok]
  rfl

end Sys2Proof.Machine
end

