-- ==== Sys2Proof/Laws/PerInstr.lean ====
section
/-! SUPPORT. The family TableRow: every instruction's encoding meets the `match` and `mask` of its row of spec/opcode_table.json. -/

namespace Sys2Proof.Laws.TableRow

/-- The `mask` and `match` of an instruction's row. -/
def row : Instr → Nat × Nat
  | .deltaA _ _ _ _ => (0x3, 0x0)
  | .deltaB _ _ _ _ => (0x3, 0x1)
  | .liqA _ _ _ _ => (0x3, 0x2)
  | .liqB _ _ _ _ => (0x3, 0x3)
  | .absd => (0x0f, 0x00)
  | .fmul => (0x0f, 0x01)
  | .cshl => (0x0f, 0x02)
  | .rdiv _ _ => (0x0f, 0x03)
  | .wadd => (0x0f, 0x04)
  | .wsub => (0x0f, 0x05)
  | .wcmp => (0x0f, 0x06)
  | .wshl => (0x0f, 0x07)
  | .wnar _ => (0x0f, 0x08)
  | .wmul => (0x0f, 0x09)

/-- The word of an encoding as a number, and whether it is of the command format. -/
def word : Encoding → Nat × Bool
  | .command w => (w.toNat, true)
  | .label u => (u.toNat, false)

/-- The encoding is of the row's format, and its masked bits are the row's. -/
def Statement (i : Instr) : Prop :=
  (word (encode i)).1 &&& (row i).1 = (row i).2 ∧ (word (encode i)).2 = Safety.isCommand i

/-- A packed record's low three bits are `cmd`. -/
theorem pack_mod_eight (c : Command) : c.pack.toNat % 8 = c.cmd.toNat := by
  have hc := c.cmd.isLt
  simp only [Command.pack, BitVec.toNat_append]
  rw [← Nat.shiftLeft_add_eq_or_of_lt hc, Nat.shiftLeft_eq]
  omega

/-- The masked bits of a packed record are the operation bits of `cmd`. -/
theorem pack_and_three (c : Command) : c.pack.toNat &&& 3 = c.cmd.toNat &&& 3 := by
  have h1 : c.pack.toNat &&& 3 = c.pack.toNat % 4 := Nat.and_two_pow_sub_one_eq_mod _ 2
  have h2 : c.cmd.toNat &&& 3 = c.cmd.toNat % 4 := Nat.and_two_pow_sub_one_eq_mod _ 2
  have h3 := pack_mod_eight c
  omega

/-- The operation bits of a `cmd` field, whatever its rounding mode. -/
theorem cmdField_and_three (m : RoundingMode) (op : BitVec 2) : (cmdField m op).toNat &&& 3 = op.toNat := by
  cases m <;> revert op <;> decide

theorem deltaA (m : RoundingMode) (p0 p1 liq : Native) : Statement (.deltaA m p0 p1 liq) :=
  ⟨(pack_and_three _).trans (cmdField_and_three m 0b00#2), rfl⟩

theorem deltaB (m : RoundingMode) (p0 p1 liq : Native) : Statement (.deltaB m p0 p1 liq) :=
  ⟨(pack_and_three _).trans (cmdField_and_three m 0b01#2), rfl⟩

theorem liqA (m : RoundingMode) (p0 p1 : Native) (amount : Amount) : Statement (.liqA m p0 p1 amount) :=
  ⟨(pack_and_three _).trans (cmdField_and_three m 0b10#2), rfl⟩

theorem liqB (m : RoundingMode) (p0 p1 : Native) (amount : Amount) : Statement (.liqB m p0 p1 amount) :=
  ⟨(pack_and_three _).trans (cmdField_and_three m 0b11#2), rfl⟩

theorem absd : Statement .absd := ⟨rfl, rfl⟩

theorem fmul : Statement .fmul := ⟨rfl, rfl⟩

theorem cshl : Statement .cshl := ⟨rfl, rfl⟩

theorem rdiv (m : RoundingMode) (w : OutWidth) : Statement (.rdiv m w) := by
  cases m <;> cases w <;> exact ⟨rfl, rfl⟩

theorem wadd : Statement .wadd := ⟨rfl, rfl⟩

theorem wsub : Statement .wsub := ⟨rfl, rfl⟩

theorem wcmp : Statement .wcmp := ⟨rfl, rfl⟩

theorem wshl : Statement .wshl := ⟨rfl, rfl⟩

theorem wnar (w : OutWidth) : Statement (.wnar w) := by
  cases w <;> exact ⟨rfl, rfl⟩

theorem wmul : Statement .wmul := ⟨rfl, rfl⟩

end Sys2Proof.Laws.TableRow
end

