-- ==== Sys2Proof/Tests/Slice0.lean ====
section
/-! SUPPORT. The model's own tests. Expected values are the spec's: 95_test_vectors.md (its section in each comment), R68, R76.
A `test_` theorem is one decoding or one step; a `witness_` theorem shows operands that meet an obligation's hypotheses. -/

namespace Sys2Proof.Tests

open Sys2Proof.Machine Sys2Proof.Safety

/-- A machine after reset with the operand wires of a unit driven. -/
def wired (a128 b128 a256 b256 b64 : Nat) : State :=
  { State.reset with
    wires := ⟨BitVec.ofNat 128 a128, BitVec.ofNat 128 b128, BitVec.ofNat 256 a256, BitVec.ofNat 256 b256, BitVec.ofNat 64 b64⟩ }

/-- Two native operands. -/
def natives (a b : Nat) : State := wired a b 0 0 0

/-- Two wide operands. -/
def wides (a b : Nat) : State := wired 0 0 a b 0

/-- What a label run as one step leaves as the unit's outcome. -/
def ranLabel (u : BitVec 6) (s : State) : Option UnitOutcome :=
  match step (s.presentLabel u) with
  | .next t => t.unitOut
  | .fault _ => none
  | .refused _ => none

/-- The response to a packed record presented after reset. -/
def asked (w : Nat) : Option Response :=
  responseOf (step (State.reset.withFetchWord 456 w))

/-- The response to a written call, through assembler, encoder, decoder and step. -/
def called (name : CallName) (p0 p1 x roundUp : Nat) : Option Response :=
  match (Call.mk name p0 p1 x roundUp).assemble with
  | .ok i => responseOf (step (State.reset.presentEncoding (some (encode i))))
  | .error _ => none

/-- The state a step leaves, the state before it where it leaves none. -/
def after (o : Host.Outcome State Fault Refusal) (s : State) : State :=
  match o with
  | .next t => t
  | .fault _ => s
  | .refused _ => s

/-! ## WellFormed: one ill-formed call for each check, and the last good value beside it (R13, R38) -/

theorem test_p0_too_wide : (Call.mk .deltaA (2 ^ 128) 0 0 0).assemble = .error .p0TooWide := by decide

theorem test_p1_too_wide : (Call.mk .liqB 0 (2 ^ 128) 0 0).assemble = .error .p1TooWide := by decide

theorem test_liq_too_wide : (Call.mk .deltaB 0 0 (2 ^ 128) 0).assemble = .error .operandTooWide := by decide

theorem test_amount_too_wide : (Call.mk .liqA 0 0 (2 ^ 64) 0).assemble = .error .operandTooWide := by decide

theorem test_round_up_not_a_bit : (Call.mk .deltaA 0 0 0 2).assemble = .error .roundUpNotABit := by decide

theorem test_widest_call :
    (Call.mk .liqA (2 ^ 128 - 1) (2 ^ 128 - 1) (2 ^ 64 - 1) 1).assemble = .ok (.liqA .up (-1) (-1) (-1)) := by decide

/-! ## Decoding: words of 95 section 9 -/

theorem test_decode_deltaA :
    decodeTableWord 456 0x00000000000000000000000000000000000000000000000080000000000000008000000000000001000000000000000000000000000000014
      = some (.deltaA .up 2 18446744073709551618 1) := by decide

theorem test_decode_deltaB :
    decodeTableWord 456 0x00000000000000000000000000000000000000000000000180000000000000004000000000000000000000000000000000000000000000005
      = some (.deltaB .up 0 9223372036854775808 3) := by decide

theorem test_decode_liqA :
    decodeTableWord 456 0x00000000000001768000000000000000000000000000000000000000000000020000000000000000000000000000000080000000000000006
      = some (.liqA .up 18446744073709551616 73786976294838206464 749) := by decide

theorem test_decode_liqB :
    decodeTableWord 456 0x00000000000000008000000000000000000000000000000000000000000000008000000000000001000000000000000000000000000000013
      = some (.liqB .down 2 18446744073709551618 1) := by decide

/-- A record of 452 bits is none. -/
theorem test_decode_too_long : decodeTableWord 456 0x80000000000000000000000000000000000000000000000000000000000000000000000000000000000000000000000000000000000000000 = none ∧ decodeTableWord 8 64 = none := by decide

theorem test_decode_labels :
    [0b000000#6, 0b000001#6, 0b000010#6, 0b000011#6, 0b010011#6, 0b100011#6, 0b110011#6, 0b000100#6, 0b000101#6,
      0b000110#6, 0b000111#6, 0b001000#6, 0b101000#6, 0b001001#6].map (fun u => (decodeLabel u).toOption)
    = [Instr.absd, .fmul, .cshl, .rdiv .down .w64, .rdiv .up .w64, .rdiv .down .w128, .rdiv .up .w128, .wadd, .wsub,
      .wcmp, .wshl, .wnar .w64, .wnar .w128, .wmul].map some := by decide

/-- The bits a unit does not read are ignored (R40), and units 1010 to 1111 are none (R41). -/
theorem test_decode_ignored_and_absent :
    decodeLabel 0b110000#6 = .ok .absd ∧ decodeLabel 0b011000#6 = .ok (.wnar .w64) ∧
    decodeLabel 0b001010#6 = .error (.noUnit 0b1010#4) ∧ decodeLabel 0b111111#6 = .error (.noUnit 0b1111#4) := by decide

/-! ## Units (95 section 2 and 3, R68, R76), each through its label -/

theorem test_absd : ranLabel 0b000000#6 (natives 2 (2 + 2 ^ 64)) = some (.ok (.native 18446744073709551616)) := by decide

theorem test_absd_swapped :
    ranLabel 0b000000#6 (natives (2 ^ 128 - 1) 0) = some (.ok (.native 340282366920938463463374607431768211455)) := by decide

theorem test_fmul :
    ranLabel 0b000001#6 (natives 0x123456789abcdef0fedcba9876543210 0x0fedcba987654321123456789abcdef0)
      = some (.ok (.wide 0x121fa00ad77d742335deb7595e5ff7985f06f6944673932236d88fe5618cf00)) := by decide

theorem test_fmul_largest :
    ranLabel 0b000001#6 (natives (2 ^ 128 - 1) (2 ^ 128 - 1))
      = some (.ok (.wide 0xfffffffffffffffffffffffffffffffe00000000000000000000000000000001)) := by decide

theorem test_cshl_last :
    ranLabel 0b000010#6 (wides (2 ^ 192 - 1) 0)
      = some (.ok (.wide 0xffffffffffffffffffffffffffffffffffffffffffffffff0000000000000000)) := by decide

theorem test_cshl_first_overflow : ranLabel 0b000010#6 (wides (2 ^ 192) 0) = some (.fail .scaleOverflow) := by decide

/-- `M / M` rounded up: a 256-bit wrap of `n + d - 1` would give 0. -/
theorem test_rdiv_up : ranLabel 0b010011#6 (wides (2 ^ 256 - 1) (2 ^ 256 - 1)) = some (.ok (.amount 1)) := by decide

/-- The remainder alone takes the quotient out of 128 bits. -/
theorem test_rdiv_up_overflow :
    ranLabel 0b110011#6 (wides (2 ^ 192 - 1) (2 ^ 64)) = some (.fail .resultOverflow) ∧
    ranLabel 0b100011#6 (wides (2 ^ 192 - 1) (2 ^ 64)) = some (.ok (.native 340282366920938463463374607431768211455)) := by decide

theorem test_wadd_carry :
    ranLabel 0b000100#6 (wides (2 ^ 256 - 1) (2 ^ 256 - 1))
      = some (.ok (.sum true 0xfffffffffffffffffffffffffffffffffffffffffffffffffffffffffffffffe)) := by decide

theorem test_wadd : ranLabel 0b000100#6 (wides 1 2) = some (.ok (.sum false 3)) := by decide

theorem test_wsub :
    ranLabel 0b000101#6 (wides (2 ^ 192) 1) = some (.ok (.wide 0xffffffffffffffffffffffffffffffffffffffffffffffff)) := by decide

theorem test_wsub_underflow : ranLabel 0b000101#6 (wides (2 ^ 128) (2 ^ 128 + 1)) = some (.fail .underflow) := by decide

theorem test_wcmp_less_equal :
    ranLabel 0b000110#6 (wides (2 ^ 192 - 1) (2 ^ 192)) = some (.ok (.order 0b01#2)) ∧
    ranLabel 0b000110#6 (wides (2 ^ 192) (2 ^ 192)) = some (.ok (.order 0b00#2)) := by decide

/-- Unsigned: the top bit is no sign. -/
theorem test_wcmp_greater : ranLabel 0b000110#6 (wides (2 ^ 256 - 1) 0) = some (.ok (.order 0b10#2)) := by decide

theorem test_wshl : ranLabel 0b000111#6 (wides (2 ^ 64) 0) = some (.ok (.wide 0x100000000000000000000000000000000)) := by decide

theorem test_wshl_lost : ranLabel 0b000111#6 (wides (2 ^ 192 + 5) 0) = some (.ok (.wide 0x50000000000000000)) := by decide

theorem test_wnar :
    ranLabel 0b001000#6 (wides (2 ^ 64 - 1) 0) = some (.ok (.amount 18446744073709551615)) ∧
    ranLabel 0b101000#6 (wides (2 ^ 64) 0) = some (.ok (.native 18446744073709551616)) := by decide

theorem test_wnar_overflow :
    ranLabel 0b001000#6 (wides (2 ^ 64) 0) = some (.fail .overflow) ∧
    ranLabel 0b101000#6 (wides (2 ^ 128) 0) = some (.fail .overflow) := by decide

theorem test_wmul :
    ranLabel 0b001001#6 (wired 0 0 (2 ^ 192 + 1) 0 (2 ^ 64 - 1))
      = some (.ok (.wide 0xffffffffffffffff00000000000000000000000000000000ffffffffffffffff)) := by decide

theorem test_wmul_overflow : ranLabel 0b001001#6 (wired 0 0 (2 ^ 193) 0 (2 ^ 63)) = some (.fail .overflow) := by decide

/-! ## Commands: packed records of 95 section 9 and calls of its sections 5 to 8 -/

/-- D0's concrete scenario (E7). -/
theorem test_deltaA :
    asked 0x00000000000000000000000000000000000000000000000080000000000000008000000000000001000000000000000000000000000000010
      = some (.ok 9223372036854775807) := by decide

/-- The call the defective shifter answers with 0 (section 3). -/
theorem test_deltaA_scale_overflow :
    asked 0x00000000000000000000000080000000000000000000000040000000800000000000000000000000400000000000000000000000000000000
      = some (.err .scaleOverflow) := by decide

theorem test_deltaB :
    asked 0x00000000000000000000000000000000000000000000000180000000000000004000000000000000000000000000000000000000000000005
      = some (.ok 2) := by decide

theorem test_deltaB_result_overflow :
    asked 0x00000000000000004000000000000000000000000000000000000000000000000000000000000001000000000000000000000000000000001
      = some (.err .resultOverflow) := by decide

theorem test_liqA : called .liqA (2 ^ 100) (2 ^ 127) (2 ^ 29 - 1) 1 = some (.ok 36893488353577534977) := by decide

theorem test_liqA_overflow :
    asked 0x00000080000000000000000000000000000000000000000040000000000000000000000000000000000000080000000000000000000000002
      = some (.err .overflow) := by decide

/-- The unused port driven to all ones. -/
theorem test_liqB :
    asked 0x0000000000000000ffffffffffffffffffffffffffffffff80000000000000000000000000000001800000000000000000000000000000007
      = some (.ok 6148914691236517206) := by decide

theorem test_liqB_division_by_zero :
    asked 0x0000000000000000800000000000000000000000000000000000000000000000000000000000000280000000000000000000000000000002f
      = some (.err .divisionByZero) := by decide

/-- The micro-operations of program P4's first command, in order, with `CSHL` and `RDIV` opened. -/
theorem test_issued :
    (after (exec (.deltaA .up 1 3 1) State.reset) State.reset).issued
      = [.absd 1 3, .fmul 1 2, .cshl 2, .wcmp 2 (BitVec.ofNat 256 (2 ^ 192)), .wshl 2, .fmul 1 3,
        .rdiv (BitVec.ofNat 256 (2 ^ 65)) 3 .up .w64, .wnar 12297829382473034411 .w64] := by decide

/-- A packed response of section 9. -/
theorem test_pack_response :
    Response.pack 0 (.ok 6148914691236517206) = 0x00000000000000002aaaaaaaaaaaaaab0#131 ∧
    (Response.pack 7 (.err .scaleOverflow)).extractLsb' 0 3 = 0b010#3 := by decide

/-! ## Witnesses: operands that meet the hypotheses of each obligation, clause by clause, at the values where clauses meet -/

theorem witness_StepRunsThePresentedInstruction :
    State.reset.request = none ∧ (State.reset.present ⟨7, 1, 2, 3, 4⟩).request = some .command ∧
    ((State.reset.presentLabel 0b111001#6).request = some (.label 0b111001#6) ∧ decodeLabel 0b111001#6 = .ok .wmul) ∧
    10 ≤ (0b001010#6).toNat % 16 ∧ 10 ≤ (0b111111#6).toNat % 16 ∧
    (State.reset.presentLabel 0b001010#6).request = some (.label 0b001010#6) := by decide

theorem witness_PresentedTableWordRunsNext :
    decodeTableWord 456 7 = some (.liqB .up 0 0 0) ∧ tableEncoding 456 7 = some (.command 7#451) ∧
    decodeTableWord 8 63 = none ∧ decodeTableWord 8 57 = some .wmul ∧ isCommand .wmul = false := by decide

/-- Records that differ in the port their command does not read, for both halves of the command set. -/
theorem witness_ResponseDependsOnTheReadPortsAlone :
    let c : Command := ⟨0b101#3, 1, 2, 3, 4⟩
    let c' : Command := ⟨0b101#3, 1, 2, 3, 5⟩
    let d : Command := ⟨0b010#3, 1, 2, 3, 4⟩
    let d' : Command := ⟨0b010#3, 1, 2, 9, 4⟩
    (c ≠ c' ∧ c.cmd = c'.cmd ∧ c.p0 = c'.p0 ∧ c.p1 = c'.p1 ∧ (c.cmd.getLsbD 1 = false → c.liq = c'.liq) ∧
      (c.cmd.getLsbD 1 = true → c.amount = c'.amount)) ∧
    (d ≠ d' ∧ d.cmd = d'.cmd ∧ d.p0 = d'.p0 ∧ d.p1 = d'.p1 ∧ (d.cmd.getLsbD 1 = false → d.liq = d'.liq) ∧
      (d.cmd.getLsbD 1 = true → d.amount = d'.amount)) := by decide

/-- A call that fails, as the first of two. -/
theorem witness_NextCallForgetsTheLast :
    ∃ t, step (State.reset.present ⟨0, 0, 5, 1, 0⟩) = .next t ∧ t.response = some (.err .divisionByZero) :=
  ⟨_, rfl, by decide⟩

/-- The state a failed `LIQ_A` leaves, with the next call presented. -/
def afterFailure : State :=
  { State.reset with
    request := some .command
    response := some (.err .overflow)
    issued := [.absd 1 2, .fmul 1 2, .wmul (BitVec.ofNat 256 (2 ^ 255)) 2] }

/-- It meets the invariant without being the reset state, and it steps. -/
theorem witness_InvariantIsKeptByEveryStep : RunInv afterFailure ∧ ∃ t, step afterFailure = .next t := by
  refine ⟨⟨?_, ?_, ?_⟩, _, rfl⟩
  · intro c hc
    simp only [afterFailure, List.mem_cons, List.not_mem_nil, or_false] at hc
    rcases hc with rfl | rfl | rfl <;> trivial
  · decide
  · intro f hf
    injection hf with hf
    injection hf with hf
    subst hf
    refine ⟨_, rfl, ?_⟩
    show 2 ^ 256 ≤ (BitVec.ofNat 256 (2 ^ 255)).toNat * (2 : Amount).toNat
    decide

theorem witness_ReencodingClearsOnlyIgnoredBits :
    decodeLabel 0b111001#6 = .ok .wmul ∧ decodeLabel 0b111000#6 = .ok (.wnar .w128) ∧
    decodeLabel 0b110011#6 = .ok (.rdiv .up .w128) := by decide

theorem witness_PackedResponseReadsBack : (∃ r : Response, r = .ok 5) ∧ (∃ r : Response, r = .err .overflow) :=
  ⟨⟨_, rfl⟩, ⟨_, rfl⟩⟩

theorem witness_WrittenCallKeepsItsNumbers :
    (Call.mk .deltaA 1 2 (2 ^ 128 - 1) 1).assemble = .ok (.deltaA .up 1 2 (-1)) ∧
    (Call.mk .deltaB 1 2 3 0).assemble = .ok (.deltaB .down 1 2 3) ∧
    (Call.mk .liqA 1 2 (2 ^ 64 - 1) 1).assemble = .ok (.liqA .up 1 2 (-1)) ∧
    (Call.mk .liqB 1 2 3 0).assemble = .ok (.liqB .down 1 2 3) := by decide

theorem witness_WsubIsExactOrUnderflows :
    (wides 0 1).wires.a256.toNat < (wides 0 1).wires.b256.toNat ∧
    (wides 5 5).wires.b256.toNat ≤ (wides 5 5).wires.a256.toNat := by decide

theorem witness_WshlShiftsModuloTheContainer : (wides (2 ^ 192 - 1) 0).wires.a256.toNat < 2 ^ 192 := by decide

theorem witness_WnarIsExactOrOverflows :
    2 ^ 64 ≤ (wides (2 ^ 64) 0).wires.a256.toNat ∧ (wides (2 ^ 64 - 1) 0).wires.a256.toNat < 2 ^ 64 ∧
    2 ^ 128 ≤ (wides (2 ^ 128) 0).wires.a256.toNat ∧ (wides (2 ^ 128 - 1) 0).wires.a256.toNat < 2 ^ 128 := by decide

theorem witness_WmulIsExactOrOverflows :
    2 ^ 256 ≤ (wired 0 0 (2 ^ 193) 0 (2 ^ 63)).wires.a256.toNat * (wired 0 0 (2 ^ 193) 0 (2 ^ 63)).wires.b64.toNat ∧
    (wired 0 0 (2 ^ 192) 0 (2 ^ 64 - 1)).wires.a256.toNat * (wired 0 0 (2 ^ 192) 0 (2 ^ 64 - 1)).wires.b64.toNat < 2 ^ 256 := by
  decide

theorem witness_CshlIsExactOrOverflows :
    2 ^ 192 ≤ (wides (2 ^ 192) 0).wires.a256.toNat ∧ (wides (2 ^ 192 - 1) 0).wires.a256.toNat < 2 ^ 192 := by decide

theorem witness_ScaleTestHasThreeForms : (cshl (BitVec.ofNat 256 (2 ^ 191))).outcome = .ok (BitVec.ofNat 256 (2 ^ 255)) := by
  decide

/-- Both ends of the defective range. -/
theorem witness_DefectiveShifterDiffersOnItsRange :
    (2 ^ 192 ≤ (BitVec.ofNat 256 (2 ^ 192)).toNat ∧ (BitVec.ofNat 256 (2 ^ 192)).toNat ≤ 2 ^ 256 - 2 ^ 192) ∧
    (2 ^ 192 ≤ (BitVec.ofNat 256 (2 ^ 256 - 2 ^ 192)).toNat ∧
      (BitVec.ofNat 256 (2 ^ 256 - 2 ^ 192)).toNat ≤ 2 ^ 256 - 2 ^ 192) := by decide

/-- A zero denominator; then, at the edge of each width, a quotient that fits and one the rounding takes out. -/
theorem witness_RdivRoundsThenNarrows :
    (wides 5 0).wires.b256 = 0 ∧ (wides (2 ^ 128 - 1) (2 ^ 64)).wires.b256 ≠ 0 ∧
    ((2 ^ 128 - 1) / 2 ^ 64 < 2 ^ 64 ∧ 2 ^ OutWidth.w64.bits ≤ (2 ^ 128 - 1) / 2 ^ 64 + 1 ∧ (2 ^ 128 - 1) % 2 ^ 64 ≠ 0) ∧
    ((2 ^ 192 - 1) / 2 ^ 64 < 2 ^ 128 ∧ 2 ^ OutWidth.w128.bits ≤ (2 ^ 192 - 1) / 2 ^ 64 + 1 ∧ (2 ^ 192 - 1) % 2 ^ 64 ≠ 0) := by
  decide

theorem witness_RoundingUpIsTheCeiling : 0 < 1 ∧ 2 ^ 256 - 1 < 2 ^ 256 ∧ roundedQuotient (2 ^ 256 - 1) 1 .up = 2 ^ 256 - 1 := by
  decide

theorem witness_DivisionLaws :
    (0 < 2 ∧ 0 < 7 ∧ roundedQuotient 7 2 .down = 3 ∧ roundedQuotient 7 2 .up = 4) ∧ 7 ≤ 8 ∧ 2 ≤ 3 ∧
    (rdiv 7 2 .up .w64).outcome = .ok 4 ∧ (rdiv 0 2 .up .w128).outcome = .ok 0 := by decide

theorem witness_ZeroShortCutComesFirst : ((5 : Native) = 5 ∨ (7 : Native) = 0) ∧ ((0 : Native) = 5 ∨ (0 : Native) = 0) := by
  decide

theorem witness_LiqBAnswersItsClosedForm : (0 : Native) ≠ 1 ∧ rounded .up ((-1 : Amount).toNat * 2 ^ Config.bShift) (gap 0 1) < 2 ^ 128 := by
  decide

theorem witness_FloorAtMostCeiling : responseOf (exec (.deltaA .up 1 3 1) State.reset) = some (.ok 12297829382473034411) := by decide

theorem witness_DeltaAGrowsWithLiquidity :
    (18446744073709551616 : Native).toNat ≤ (18446744073709551618 : Native).toNat ∧
    responseOf (exec (.deltaA .up 18446744073709551616 18446744073709551617 18446744073709551618) State.reset) = some (.ok 2) := by
  decide

/-- Program P2's prices, and row four of E6. -/
theorem witness_RoundTripThroughAmountA :
    let p0 : Native := 55340232221128654848
    let p1 : Native := 92233720368547758080
    (p0 ≠ p1 ∧ p0 ≠ 0 ∧ p1 ≠ 0) ∧
    (responseOf (exec (.deltaA .up p0 p1 1000000) State.reset) = some (.ok 133334) ∧
      responseOf (exec (.liqA .down p0 p1 ((133334 : Native).setWidth 64)) State.reset) = some (.ok 1000005)) ∧
    (responseOf (exec (.deltaA .down p0 p1 1000000) State.reset) = some (.ok 133333) ∧
      responseOf (exec (.liqA .up p0 p1 ((133333 : Native).setWidth 64)) State.reset) = some (.ok 999998)) := by decide

/-- The last two rows of P2, and the same amount rounded the other way. -/
theorem witness_RoundTripThroughAmountB :
    let p0 : Native := 55340232221128654848
    let p1 : Native := 92233720368547758080
    p0 ≠ p1 ∧
    (responseOf (exec (.deltaB .up p0 p1 1000000) State.reset) = some (.ok 2000000) ∧
      responseOf (exec (.liqB .down p0 p1 ((2000000 : Native).setWidth 64)) State.reset) = some (.ok 1000000)) ∧
    (responseOf (exec (.deltaB .down p0 p1 1000000) State.reset) = some (.ok 2000000) ∧
      responseOf (exec (.liqB .up p0 p1 ((2000000 : Native).setWidth 64)) State.reset) = some (.ok 1000000)) := by decide

/-- One failing call for each command (P5). -/
theorem witness_CommandsFailAsTheTableSays :
    responseOf (exec (.deltaA .up 1 2 2) State.reset) = some (.err .resultOverflow) ∧
    responseOf (exec (.deltaB .down 0 18446744073709551616 18446744073709551616) State.reset) = some (.err .resultOverflow) ∧
    responseOf (exec (.liqA .down (-1) (-1) (-1)) State.reset) = some (.err .overflow) ∧
    responseOf (exec (.liqB .down 5 5 0) State.reset) = some (.err .divisionByZero) := by decide

/-- Each clause in turn: the product at `2^192 - 1`, the last that reaches the division, and the price at 1 and at `2^128 - 1`. -/
theorem witness_ZeroPricesAreRejectedOnlyAtADivision :
    let p : Native := BitVec.ofNat 128 (2 ^ 96 + 1)
    let liq : Native := BitVec.ofNat 128 (2 ^ 96 - 1)
    (p ≠ 0 ∧ liq ≠ 0 ∧ liq.toNat * p.toNat = 2 ^ 192 - 1 ∧ liq.toNat * p.toNat < 2 ^ 192 ∧
      responseOf (exec (.deltaA .down 0 p liq) State.reset) = some (.err .divisionByZero) ∧
      responseOf (exec (.deltaA .down 0 (p - 1) (liq + 1)) State.reset) = some (.err .scaleOverflow)) ∧
    responseOf (exec (.deltaA .up 5 0 0) State.reset) = some (.ok 0) ∧
    responseOf (exec (.deltaB .up 0 1 (-1)) State.reset) = some (.err .resultOverflow) ∧
    ((1 : Native) ≠ 0 ∧ (-1 : Native) ≠ 0 ∧ responseOf (exec (.liqA .up (-1) 0 (-1)) State.reset) = some (.ok 0)) ∧
    (responseOf (exec (.liqB .down 0 1 (-1)) State.reset) = some (.ok 340282366920938463444927863358058659840) ∧
      responseOf (exec (.liqB .up (-1) 0 1) State.reset) = some (.ok 1)) := by decide

theorem witness_AmountsStandInTheLowHalf :
    responseOf (exec (.deltaA .down 1 18446744073709551617 1) State.reset) = some (.ok 18446744073709551615) ∧
    responseOf (exec (.deltaB .down 0 1 (-1)) State.reset) = some (.ok 18446744073709551615) := by decide

/-- Each of the four failures a call can have. -/
theorem witness_FailureIsRaisedByTheLastMicroOperation :
    (isCommand (.deltaA .down 0 (-1) (-1)) = true ∧ ∃ t, exec (.deltaA .down 0 (-1) (-1)) State.reset = .next t ∧
      t.response = some (.err .scaleOverflow)) ∧
    (∃ t, exec (.deltaA .down 0 5 1) State.reset = .next t ∧ t.response = some (.err .divisionByZero)) ∧
    (∃ t, exec (.deltaA .up 1 2 2) State.reset = .next t ∧ t.response = some (.err .resultOverflow)) ∧
    (∃ t, exec (.liqA .down (-1) (-1) (-1)) State.reset = .next t ∧ t.response = some (.err .overflow)) :=
  ⟨⟨rfl, _, rfl, by decide⟩, ⟨_, rfl, by decide⟩, ⟨_, rfl, by decide⟩, ⟨_, rfl, by decide⟩⟩

/-- A call that runs its whole program, and one the short-cut ends. -/
theorem witness_CommandsIssueTheirProgramInOrder :
    (isCommand (.liqB .down 0 3 1) = true ∧ ∃ t, exec (.liqB .down 0 3 1) State.reset = .next t ∧
      t.response = some (.ok 6148914691236517205)) ∧
    (∃ t, exec (.deltaA .up 5 5 7) State.reset = .next t ∧ t.response = some (.ok 0)) :=
  ⟨⟨rfl, _, rfl, by decide⟩, _, rfl, by decide⟩

end Sys2Proof.Tests
end

section
/-! PROOFS. The scope's parameters (00_scope.md section 4): the threshold of the checked shift against the raw shift. -/

namespace Sys2Proof.Machine

/-- R6: the limit is `2^(W - K)`, so it is the same `K` that the shift uses. -/
theorem scaleLimit_toNat_eq_two_pow : Config.scaleLimit.toNat = 2 ^ (Config.W - Config.K) := scaleLimit_toNat

/-- A shift by `k` stays in `w` bits exactly below `2^(w - k)`. -/
theorem lt_two_pow_sub_iff_mul_lt {w k : Nat} (hkw : k ≤ w) (n : Nat) : n < 2 ^ (w - k) ↔ n * 2 ^ k < 2 ^ w := by
  have hcap : 2 ^ (w - k) * 2 ^ k = 2 ^ w := pow_sub_mul_pow 2 hkw
  rw [← hcap]
  exact (Nat.mul_lt_mul_right (Nat.two_pow_pos k)).symm

/-- Settles O31: the limit is the container's capacity for a shift by `K`, and `WSHL` is that shift modulo `2^W`. -/
theorem thresholdMatchesTheShift : Obligations.ThresholdMatchesTheShift := by
  refine ⟨fun v => ?_, fun v => ⟨shiftBits v, ?_, toNat_shiftBits v⟩⟩
  · rw [scaleLimit_toNat_eq_two_pow]
    exact lt_two_pow_sub_iff_mul_lt (by decide) v.toNat
  · rw [wshl_eq]

end Sys2Proof.Machine
end

section
/-! PROOFS. The machine's state (10_state.md): what reset holds (R19), the invariant of a state no call has been made from, and
the words a decoded record or label is encoded to again (R13, R40). -/

namespace Sys2Proof

/-! The bits that select a mode and a width, read and written again. -/

@[simp] theorem RoundingMode.bit_ofBit (b : Bool) : (RoundingMode.ofBit b).bit = BitVec.ofBool b := by
  cases b <;> rfl

@[simp] theorem OutWidth.bit_ofBit (b : Bool) : (OutWidth.ofBit b).bit = BitVec.ofBool b := by
  cases b <;> rfl

/-! Command records. -/

/-- R31: `cmd` is its rounding bit above the two bits of its operation. -/
theorem cmdField_ofBit {c : BitVec 3} {op : BitVec 2} (h1 : c.getLsbD 1 = op.getLsbD 1)
    (h0 : c.getLsbD 0 = op.getLsbD 0) : cmdField (.ofBit (c.getLsbD 2)) op = c := by
  rw [cmdField, RoundingMode.bit_ofBit]
  revert c op
  decide

/-- `cmd[1]` alone chooses the operand port that is read; the other one is not kept (R13, log entry 11). -/
theorem encode_decodeCommand (c : Command) : encode (decodeCommand c) = .command (Command.pack
    { c with
      liq := if c.cmd.getLsbD 1 then 0 else c.liq
      amount := if c.cmd.getLsbD 1 then c.amount else 0 }) := by
  unfold decodeCommand
  split
  all_goals
    rename_i h1 h0
    rw [h1, encode, cmdField_ofBit h1 h0]
    rfl

/-! Labels: `{w, m, unit}` (R40). -/

/-- A label is its width bit, its mode bit and its unit. -/
theorem unitLabel_fields (u : BitVec 6) :
    unitLabel (BitVec.ofBool (u.getLsbD 5)) (BitVec.ofBool (u.getLsbD 4)) (u.extractLsb' 0 4) = u := by
  revert u
  decide

/-- A mask acts on each field of a label by itself. -/
theorem unitLabel_and (w w' m m' : BitVec 1) (unit unit' : BitVec 4) :
    unitLabel w m unit &&& unitLabel w' m' unit' = unitLabel (w &&& w') (m &&& m') (unit &&& unit') := by
  rw [unitLabel, unitLabel, unitLabel, ← BitVec.and_append]
  exact BitVec.and_append

/-- The unit of a label as the number `decodeLabel` looks at. -/
theorem unit_eq_ofNat {u : BitVec 6} {k : Nat} (h : (u.extractLsb' 0 4).toNat = k) :
    u.extractLsb' 0 4 = BitVec.ofNat 4 k := by
  rw [← h, BitVec.ofNat_toNat, BitVec.setWidth_eq]

/-- A mask that keeps the unit field leaves the unit's number, and of the width and mode bits what `w` and `m` keep. -/
theorem and_unitLabel {u : BitVec 6} {k : Nat} (h : (u.extractLsb' 0 4).toNat = k) (w m : BitVec 1) :
    u &&& unitLabel w m (BitVec.allOnes 4) =
      unitLabel (BitVec.ofBool (u.getLsbD 5) &&& w) (BitVec.ofBool (u.getLsbD 4) &&& m) (BitVec.ofNat 4 k) := by
  conv_lhs => rw [← unitLabel_fields u]
  rw [unitLabel_and, BitVec.and_allOnes, unit_eq_ofNat h]

/-- R40's table as masks: the label bits `{w, m, unit}` that an instruction's unit reads. -/
def labelMask : Instr → BitVec 6
  | .rdiv _ _ => unitLabel (.allOnes 1) (.allOnes 1) (.allOnes 4)
  | .wnar _ => unitLabel (.allOnes 1) 0 (.allOnes 4)
  | _ => unitLabel 0 0 (.allOnes 4)

/-- Of a label that decodes, encoding keeps exactly the bits its unit reads (log entry 11). -/
theorem encode_of_decodeLabel {u : BitVec 6} {i : Instr} (h : decodeLabel u = .ok i) :
    encode i = .label (u &&& labelMask i) := by
  unfold decodeLabel at h
  split at h
  case h_11 => cases h
  all_goals
    rename_i hu
    cases h
    simp only [encode, labelMask, and_unitLabel hu, RoundingMode.bit_ofBit, OutWidth.bit_ofBit,
      BitVec.and_allOnes, BitVec.ofNat_eq_ofNat, BitVec.and_zero]

end Sys2Proof

namespace Sys2Proof.Machine

open Sys2Proof.Safety

/-- With no response and an empty log there is nothing for the invariant to speak of. -/
theorem runInv_of_noCall {s : State} (hresp : s.response = none) (hlog : s.issued = []) : RunInv s where
  issuedPermitted c hc := by simp [hlog] at hc
  responseOfACall := iff_of_true hresp hlog
  failureWasRaised f hf := by simp [hresp] at hf

/-- Settles O12: both halves of the encoding, records and labels. -/
theorem reencodingClearsOnlyIgnoredBits : Obligations.ReencodingClearsOnlyIgnoredBits :=
  ⟨encode_decodeCommand, fun _ _ => encode_of_decodeLabel⟩

/-- Settles O1: each field of the reset state is its literal, and the limit is the shifter's capacity. -/
theorem resetHoldsNoCallAndTheLimit : Obligations.ResetHoldsNoCallAndTheLimit :=
  ⟨rfl, scaleLimit_toNat, rfl, rfl, rfl, rfl, rfl⟩

/-- Settles O9: no call has been made from the reset state. -/
theorem resetMeetsTheInvariant : Obligations.ResetMeetsTheInvariant :=
  runInv_of_noCall rfl rfl

end Sys2Proof.Machine
end

section
/-! PROOFS. The consistency model (20_memory.md section 2): a response is a function of the ports its command reads (R25 a, b, R13),
so calls commute (R25 c). Both rest on one fact: a command's run does not look at the state. -/

namespace Sys2Proof

/-- R13, D24: two records that agree on `cmd`, on both prices and on the operand port that `cmd[1]` chooses are two spellings of
one instruction. -/
theorem decodeCommand_congr {c c' : Command} (hcmd : c.cmd = c'.cmd) (hp0 : c.p0 = c'.p0) (hp1 : c.p1 = c'.p1)
    (hliq : c.cmd.getLsbD 1 = false → c.liq = c'.liq) (hamount : c.cmd.getLsbD 1 = true → c.amount = c'.amount) :
    decodeCommand c = decodeCommand c' := by
  unfold decodeCommand
  rw [← hcmd, ← hp0, ← hp1]
  split
  case h_1 h1 _ => rw [hliq h1]
  case h_2 h1 _ => rw [hliq h1]
  case h_3 h1 _ => rw [hamount h1]
  case h_4 h1 _ => rw [hamount h1]

end Sys2Proof

namespace Sys2Proof.Machine

open Sys2Proof.Safety

/-- A run ends a call with one response, whatever the state. -/
theorem answer_from_every_state (r : Run Native) :
    ∃ resp, ∀ s : State, s.answer r = .next { s with response := some resp, issued := r.issued } := by
  cases h : r.outcome with
  | ok v => exact ⟨.ok v, answer_of_ok h⟩
  | error f => exact ⟨.err f, answer_of_error h⟩

/-- The run a command answers with is chosen by its own operands. -/
theorem exec_eq_answer_of_isCommand {i : Instr} (h : isCommand i = true) :
    ∃ r : Run Native, ∀ s, exec i s = s.answer r := by
  cases i with
  | deltaA m p0 p1 liq => exact ⟨_, exec_deltaA m p0 p1 liq⟩
  | deltaB m p0 p1 liq => exact ⟨_, exec_deltaB m p0 p1 liq⟩
  | liqA m p0 p1 amount => exact ⟨_, exec_liqA m p0 p1 amount⟩
  | liqB m p0 p1 amount => exact ⟨_, exec_liqB m p0 p1 amount⟩
  | _ => cases h

/-- `exec_command` with the response and the log chosen before the state. -/
theorem exec_command_from_every_state {i : Instr} (h : isCommand i = true) :
    ∃ resp issued, ∀ s, exec i s = .next { s with response := some resp, issued := issued } := by
  obtain ⟨r, hexec⟩ := exec_eq_answer_of_isCommand h
  obtain ⟨resp, hanswer⟩ := answer_from_every_state r
  exact ⟨resp, r.issued, fun s => (hexec s).trans (hanswer s)⟩

/-- R25 (b): a command's response does not depend on the state. -/
theorem responseOf_exec_command {i : Instr} (h : isCommand i = true) (s s' : State) :
    responseOf (exec i s) = responseOf (exec i s') := by
  obtain ⟨resp, issued, hexec⟩ := exec_command_from_every_state h
  rw [hexec, hexec, responseOf, responseOf]

/-- R25 (a), (b): a presented record is answered with one response and one log, whatever the state. -/
theorem step_present_from_every_state (c : Command) :
    ∃ resp issued, ∀ s : State,
      step (s.present c) = .next { (s.present c).accept with response := some resp, issued := issued } := by
  obtain ⟨resp, issued, hexec⟩ := exec_command_from_every_state (isCommand_decodeCommand c)
  exact ⟨resp, issued, fun s => (step_present s c).trans (hexec _)⟩

/-- Settles O5: the two records decode to one command, and its response does not depend on the state. -/
theorem responseDependsOnTheReadPortsAlone : Obligations.ResponseDependsOnTheReadPortsAlone := by
  intro s s' c c' hcmd hp0 hp1 hliq hamount
  rw [step_present, step_present, decodeCommand_congr hcmd hp0 hp1 hliq hamount]
  exact responseOf_exec_command (isCommand_decodeCommand c') _ _

/-- Settles O7: each of the two records has one response, whichever call comes first. -/
theorem callsCommute : Obligations.CallsCommute := by
  intro s c₁ c₂
  obtain ⟨resp₁, issued₁, hstep₁⟩ := step_present_from_every_state c₁
  obtain ⟨resp₂, issued₂, hstep₂⟩ := step_present_from_every_state c₂
  exact ⟨_, _, _, _, hstep₁ s, hstep₂ _, hstep₂ s, hstep₁ _, rfl, rfl⟩

end Sys2Proof.Machine
end

section
/-! PROOFS. The encodings (30_encoding.md): the invariant that every step keeps and the order of a command's micro-operations
(R42), each carried through the sequencing `x <- U(args)`; then the two formats, the response and the written call, each read back. -/

namespace Sys2Proof.Machine

open Sys2Proof.Safety

/-! What a run may issue and how it may fail (R42, R101). -/

/-- A run that issues permitted micro-operations only, and fails only where the last one issued raises the failure. -/
structure Run.Accountable {α : Type} (r : Run α) : Prop where
  permitted : ∀ c ∈ r.issued, Permitted c
  raised : ∀ f, r.outcome = .error f → ∃ c, r.issued.getLast? = some c ∧ Raises c f

section
variable {α β : Type}

theorem Run.accountable_of_ok {l : List UnitCall} (v : α) (h : ∀ c ∈ l, Permitted c) :
    (⟨l, .ok v⟩ : Run α).Accountable where
  permitted := h
  raised _ hf := by cases hf

theorem Run.accountable_of_error {l : List UnitCall} {c : UnitCall} {f : Failure} (h : ∀ c ∈ l, Permitted c)
    (hlast : l.getLast? = some c) (hraise : Raises c f) : (⟨l, .error f⟩ : Run α).Accountable where
  permitted := h
  raised g hg := by
    cases hg
    exact ⟨c, hlast, hraise⟩

/-- Where the second part fails, its last micro-operation is the last of the sequence. -/
theorem Run.Accountable.bind {r : Run α} {k : α → Run β} (hr : r.Accountable) (hk : ∀ v, (k v).Accountable) :
    (r.bind k).Accountable := by
  cases hout : r.outcome with
  | error f =>
    rw [Run.bind_of_error hout]
    obtain ⟨c, hlast, hraise⟩ := hr.raised f hout
    exact accountable_of_error hr.permitted hlast hraise
  | ok v =>
    rw [Run.bind_of_ok hout]
    constructor
    · intro c hc
      exact (List.mem_append.1 hc).elim (hr.permitted c) ((hk v).permitted c)
    · intro f hf
      obtain ⟨c, hlast, hraise⟩ := (hk v).raised f hf
      exact ⟨c, by simp [hlast], hraise⟩

theorem Run.Accountable.map {r : Run α} (hr : r.Accountable) (g : α → β) : (r.map g).Accountable where
  permitted := hr.permitted
  raised f hf := by
    cases hout : r.outcome with
    | error e =>
      rw [Run.map_of_error hout] at hf
      cases hf
      exact hr.raised f hout
    | ok v => rw [Run.map_of_ok hout] at hf; cases hf

/-- A sequence issues at least what its first part issues. -/
theorem Run.bind_issued_ne_nil {r : Run α} (h : r.issued ≠ []) (k : α → Run β) : (r.bind k).issued ≠ [] := by
  cases hout : r.outcome with
  | error f => rwa [Run.bind_of_error hout]
  | ok v => rw [Run.bind_of_ok hout]; exact List.append_ne_nil_of_left_ne_nil h _

end

theorem absd_accountable (a b : Native) : (absd a b).Accountable := by
  rw [absd_eq]
  exact Run.accountable_of_ok _ (by simp [Permitted])

theorem fmul_accountable (a b : Native) : (fmul a b).Accountable := by
  rw [fmul_eq]
  exact Run.accountable_of_ok _ (by simp [Permitted])

/-- R126: the shift is issued only below the limit, where no bit is lost. -/
theorem cshl_accountable (v : Wide) : (cshl v).Accountable := by
  rcases Nat.lt_or_ge v.toNat (2 ^ 192) with h | h
  · rw [cshl_of_lt h]
    have hshift : Permitted (.wshl v) := by
      unfold Permitted
      omega
    refine Run.accountable_of_ok _ fun c hc => ?_
    simp only [List.mem_cons, List.not_mem_nil, or_false] at hc
    rcases hc with rfl | rfl | rfl
    · trivial
    · trivial
    · exact hshift
  · rw [cshl_of_le h]
    exact Run.accountable_of_error (by simp [Permitted]) rfl ⟨scaleLimit_toNat, h⟩

theorem wmul_accountable (a : Wide) (b : Amount) : (wmul a b).Accountable := by
  rcases Nat.lt_or_ge (a.toNat * b.toNat) (2 ^ 256) with h | h
  · rw [wmul_of_lt h]
    exact Run.accountable_of_ok _ (by simp [Permitted])
  · rw [wmul_of_le h]
    exact Run.accountable_of_error (by simp [Permitted]) rfl h

theorem rdiv_accountable (n d : Wide) (m : RoundingMode) (w : OutWidth) : (rdiv n d m w).Accountable := by
  obtain ⟨hd, h⟩ | ⟨-, q, -, ⟨-, h⟩ | ⟨hq, h⟩⟩ := rdiv_cases n d m w
  · rw [h]
    exact Run.accountable_of_error (by simp [Permitted]) rfl (BitVec.eq_of_toNat_eq hd)
  · rw [h]
    exact Run.accountable_of_ok _ (by simp [Permitted])
  · rw [h]
    exact Run.accountable_of_error (by simp [Permitted]) rfl hq

theorem deltaA_accountable (m : RoundingMode) (p0 p1 liq : Native) : (deltaA m p0 p1 liq).Accountable := by
  refine (absd_accountable p0 p1).bind fun v0 => ?_
  split
  · exact Run.accountable_of_ok _ (by simp)
  · exact (fmul_accountable _ _).bind fun _ => (cshl_accountable _).bind fun _ =>
      (fmul_accountable _ _).bind fun _ => rdiv_accountable _ _ _ _

theorem deltaB_accountable (m : RoundingMode) (p0 p1 liq : Native) : (deltaB m p0 p1 liq).Accountable :=
  (absd_accountable p0 p1).bind fun _ => (fmul_accountable _ _).bind fun _ => rdiv_accountable _ _ _ _

theorem liqA_accountable (m : RoundingMode) (p0 p1 : Native) (amount : Amount) : (liqA m p0 p1 amount).Accountable :=
  (absd_accountable p0 p1).bind fun _ => (fmul_accountable _ _).bind fun _ => (wmul_accountable _ _).bind fun _ =>
    (fmul_accountable _ _).bind fun _ => rdiv_accountable _ _ _ _

theorem liqB_accountable (m : RoundingMode) (p0 p1 : Native) (amount : Amount) : (liqB m p0 p1 amount).Accountable :=
  (absd_accountable p0 p1).bind fun _ => (fmul_accountable _ _).bind fun _ => rdiv_accountable _ _ _ _

/-- Every command starts with `ABSD`, so it issues something. -/
theorem absd_bind_map_issued_ne_nil {β γ : Type} (a b : Native) (k : Native → Run β) (g : β → γ) :
    (((absd a b).bind k).map g).issued ≠ [] :=
  Run.bind_issued_ne_nil (by simp [absd_eq]) k

/-- A command answers with an accountable run that issues something. -/
theorem exec_eq_answer_accountable {i : Instr} (h : isCommand i = true) :
    ∃ r : Run Native, (∀ s, exec i s = s.answer r) ∧ r.Accountable ∧ r.issued ≠ [] := by
  cases i with
  | deltaA m p0 p1 liq =>
    exact ⟨_, exec_deltaA m p0 p1 liq, (deltaA_accountable m p0 p1 liq).map _, absd_bind_map_issued_ne_nil p0 p1 _ _⟩
  | deltaB m p0 p1 liq =>
    exact ⟨_, exec_deltaB m p0 p1 liq, (deltaB_accountable m p0 p1 liq).map _, absd_bind_map_issued_ne_nil p0 p1 _ _⟩
  | liqA m p0 p1 amount =>
    exact ⟨_, exec_liqA m p0 p1 amount, (liqA_accountable m p0 p1 amount).map _, absd_bind_map_issued_ne_nil p0 p1 _ _⟩
  | liqB m p0 p1 amount =>
    exact ⟨_, exec_liqB m p0 p1 amount, (liqB_accountable m p0 p1 amount).map _, absd_bind_map_issued_ne_nil p0 p1 _ _⟩
  | _ => cases h

/-! The invariant, case by case of a step. -/

/-- What an answered call leaves: the run's log, and the run's outcome as the response. -/
theorem answer_cases {s t : State} {r : Run Native} (h : s.answer r = .next t) :
    t.issued = r.issued ∧
      ((∃ v, r.outcome = .ok v ∧ t.response = some (.ok v)) ∨
        (∃ f, r.outcome = .error f ∧ t.response = some (.err f))) := by
  cases hout : r.outcome with
  | ok v =>
    rw [answer_of_ok hout] at h
    cases h
    exact ⟨rfl, .inl ⟨v, rfl, rfl⟩⟩
  | error f =>
    rw [answer_of_error hout] at h
    cases h
    exact ⟨rfl, .inr ⟨f, rfl, rfl⟩⟩

/-- An answered call meets the invariant whatever the state before it was. -/
theorem runInv_of_answer {s t : State} {r : Run Native} (hr : r.Accountable) (hne : r.issued ≠ [])
    (h : s.answer r = .next t) : RunInv t := by
  obtain ⟨hlog, hresp⟩ := answer_cases h
  constructor
  · rw [hlog]
    exact hr.permitted
  · rw [hlog]
    refine iff_of_false ?_ hne
    obtain ⟨v, -, hv⟩ | ⟨f, -, hf⟩ := hresp
    · simp [hv]
    · simp [hf]
  · intro f hf
    rw [hlog]
    refine hr.raised f ?_
    obtain ⟨v, -, hv⟩ | ⟨g, hg, hg'⟩ := hresp
    · simp [hv] at hf
    · rw [hg'] at hf
      cases hf
      exact hg

/-- The invariant speaks of the response and the log alone. -/
theorem runInv_congr {s t : State} (hresp : t.response = s.response) (hlog : t.issued = s.issued) (h : RunInv s) :
    RunInv t where
  issuedPermitted := by rw [hlog]; exact h.issuedPermitted
  responseOfACall := by rw [hresp, hlog]; exact h.responseOfACall
  failureWasRaised := by rw [hresp, hlog]; exact h.failureWasRaised

/-- Settles O8: an idle step and a unit run by itself leave the response and the log; a command answers with a new log, which is
accountable by itself. -/
theorem invariantIsKeptByEveryStep : Obligations.InvariantIsKeptByEveryStep := by
  intro s t hs h
  obtain ⟨-, rfl⟩ | ⟨-, hexec, -⟩ | ⟨u, i, o, -, -, rfl⟩ := step_cases h
  · exact hs
  · obtain ⟨r, hanswer, hr, hne⟩ := exec_eq_answer_accountable (isCommand_decodeCommand s.ports)
    exact runInv_of_answer hr hne ((hanswer _).symm.trans hexec)
  · exact runInv_congr (s := s) rfl rfl hs

/-! The order of a command's micro-operations (R42). -/

/-- A run that issues `prog` from its start on, and all of it where it ends with a value. -/
structure Run.Follows {α : Type} (r : Run α) (prog : List Instr) : Prop where
  initial : r.issued.map UnitCall.instr <+: prog
  whole : ∀ v, r.outcome = .ok v → r.issued.map UnitCall.instr = prog

section
variable {α β : Type}

theorem Run.follows_of_ok {l : List UnitCall} {prog : List Instr} (v : α) (h : l.map UnitCall.instr = prog) :
    (⟨l, .ok v⟩ : Run α).Follows prog where
  initial := by rw [h]
  whole _ _ := h

theorem Run.follows_of_error {l : List UnitCall} {prog : List Instr} {f : Failure} (h : l.map UnitCall.instr <+: prog) :
    (⟨l, .error f⟩ : Run α).Follows prog where
  initial := h
  whole _ hv := by cases hv

/-- Programs are put one after another as runs are; the second run matters only for the value the first one has. -/
theorem Run.Follows.bind {r : Run α} {k : α → Run β} {prog prog' : List Instr} (hr : r.Follows prog)
    (hk : ∀ v, r.outcome = .ok v → (k v).Follows prog') : (r.bind k).Follows (prog ++ prog') := by
  cases hout : r.outcome with
  | error f =>
    rw [Run.bind_of_error hout]
    exact follows_of_error (hr.initial.trans (List.prefix_append _ _))
  | ok v =>
    have hrest := hk v hout
    rw [Run.bind_of_ok hout]
    constructor
    · rw [List.map_append, hr.whole v hout]
      exact (List.prefix_append_right_inj prog).2 hrest.initial
    · intro b hb
      rw [List.map_append, hr.whole v hout, hrest.whole b hb]

theorem Run.Follows.map {r : Run α} {prog : List Instr} (hr : r.Follows prog) (g : α → β) : (r.map g).Follows prog where
  initial := hr.initial
  whole b hb := by
    cases hout : r.outcome with
    | error f => rw [Run.map_of_error hout] at hb; cases hb
    | ok v => exact hr.whole v hout

end

theorem absd_follows (a b : Native) : (absd a b).Follows [.absd] := by
  rw [absd_eq]
  exact Run.follows_of_ok _ rfl

theorem fmul_follows (a b : Native) : (fmul a b).Follows [.fmul] := by
  rw [fmul_eq]
  exact Run.follows_of_ok _ rfl

theorem cshl_follows (v : Wide) : (cshl v).Follows [.cshl, .wcmp, .wshl] := by
  rcases Nat.lt_or_ge v.toNat (2 ^ 192) with h | h
  · rw [cshl_of_lt h]
    exact Run.follows_of_ok _ rfl
  · rw [cshl_of_le h]
    exact Run.follows_of_error ⟨[.wshl], rfl⟩

theorem wmul_follows (a : Wide) (b : Amount) : (wmul a b).Follows [.wmul] := by
  rcases Nat.lt_or_ge (a.toNat * b.toNat) (2 ^ 256) with h | h
  · rw [wmul_of_lt h]
    exact Run.follows_of_ok _ rfl
  · rw [wmul_of_le h]
    exact Run.follows_of_error List.prefix_rfl

theorem rdiv_follows (n d : Wide) (m : RoundingMode) (w : OutWidth) : (rdiv n d m w).Follows [.rdiv m w, .wnar w] := by
  obtain ⟨-, h⟩ | ⟨-, q, -, ⟨-, h⟩ | ⟨-, h⟩⟩ := rdiv_cases n d m w
  · rw [h]
    exact Run.follows_of_error ⟨[.wnar w], rfl⟩
  · rw [h]
    exact Run.follows_of_ok _ rfl
  · rw [h]
    exact Run.follows_of_error List.prefix_rfl

/-- Off the short-cut. -/
theorem deltaA_follows {m : RoundingMode} {p0 p1 liq : Native} (h : ¬ (p0 = p1 ∨ liq = 0)) :
    (deltaA m p0 p1 liq).Follows (program (.deltaA m p0 p1 liq)) := by
  refine (absd_follows p0 p1).bind fun v0 hv0 => ?_
  have hgap : gapBits p0 p1 = v0 := by
    rw [absd_eq] at hv0
    cases hv0
    rfl
  rw [← hgap, if_neg (mt (nothingToConvert_iff p0 p1 liq).1 h)]
  exact (fmul_follows _ _).bind fun _ _ => (cshl_follows _).bind fun _ _ =>
    (fmul_follows _ _).bind fun _ _ => rdiv_follows _ _ _ _

theorem deltaB_follows (m : RoundingMode) (p0 p1 liq : Native) :
    (deltaB m p0 p1 liq).Follows (program (.deltaB m p0 p1 liq)) :=
  (absd_follows p0 p1).bind fun _ _ => (fmul_follows _ _).bind fun _ _ => rdiv_follows _ _ _ _

theorem liqA_follows (m : RoundingMode) (p0 p1 : Native) (amount : Amount) :
    (liqA m p0 p1 amount).Follows (program (.liqA m p0 p1 amount)) :=
  (absd_follows p0 p1).bind fun _ _ => (fmul_follows _ _).bind fun _ _ => (wmul_follows _ _).bind fun _ _ =>
    (fmul_follows _ _).bind fun _ _ => rdiv_follows _ _ _ _

theorem liqB_follows (m : RoundingMode) (p0 p1 : Native) (amount : Amount) :
    (liqB m p0 p1 amount).Follows (program (.liqB m p0 p1 amount)) :=
  (absd_follows p0 p1).bind fun _ _ => (fmul_follows _ _).bind fun _ _ => rdiv_follows _ _ _ _

/-- The same of the log and the response that a call leaves. -/
theorem issued_of_answer_follows {s t : State} {r : Run Native} {prog : List Instr} (hr : r.Follows prog)
    (h : s.answer r = .next t) :
    t.issued.map UnitCall.instr <+: prog ∧
      ∀ v, t.response = some (.ok v) → t.issued.map UnitCall.instr = prog := by
  obtain ⟨hlog, hresp⟩ := answer_cases h
  rw [hlog]
  refine ⟨hr.initial, fun v hv => ?_⟩
  obtain ⟨a, ha, -⟩ | ⟨f, -, hf⟩ := hresp
  · exact hr.whole a ha
  · simp [hf] at hv

/-- R82: what the short-cut leaves. -/
theorem exec_deltaA_shortCut {m : RoundingMode} {p0 p1 liq : Native} (h : p0 = p1 ∨ liq = 0) (s : State) :
    exec (.deltaA m p0 p1 liq) s = .next { s with response := some (.ok 0), issued := [.absd p0 p1] } := by
  rw [exec_deltaA, deltaA_shortCut h]
  rfl

/-- Off the short-cut a command answers with a run that follows its program. -/
theorem exec_eq_answer_follows {i : Instr} (hi : isCommand i = true)
    (hcut : ¬ ∃ m p0 p1 liq, i = .deltaA m p0 p1 liq ∧ (p0 = p1 ∨ liq = 0)) :
    ∃ r : Run Native, (∀ s, exec i s = s.answer r) ∧ r.Follows (program i) := by
  cases i with
  | deltaA m p0 p1 liq =>
    exact ⟨_, exec_deltaA m p0 p1 liq, (deltaA_follows fun h => hcut ⟨m, p0, p1, liq, rfl, h⟩).map _⟩
  | deltaB m p0 p1 liq => exact ⟨_, exec_deltaB m p0 p1 liq, (deltaB_follows m p0 p1 liq).map _⟩
  | liqA m p0 p1 amount => exact ⟨_, exec_liqA m p0 p1 amount, (liqA_follows m p0 p1 amount).map _⟩
  | liqB m p0 p1 amount => exact ⟨_, exec_liqB m p0 p1 amount, (liqB_follows m p0 p1 amount).map _⟩
  | _ => cases hi

/-- Settles O50: on the short-cut the log is `ABSD` alone and the value is 0; off it the command follows its program. -/
theorem commandsIssueTheirProgramInOrder : Obligations.CommandsIssueTheirProgramInOrder := by
  intro i s t hi h
  by_cases hcut : ∃ m p0 p1 liq, i = .deltaA m p0 p1 liq ∧ (p0 = p1 ∨ liq = 0)
  · obtain ⟨m, p0, p1, liq, rfl, hzero⟩ := hcut
    rw [exec_deltaA_shortCut hzero] at h
    cases h
    refine ⟨⟨_, rfl⟩, fun v hv => .inr ⟨rfl, ?_, m, p0, p1, liq, rfl, hzero⟩⟩
    cases hv
    rfl
  · obtain ⟨r, hanswer, hr⟩ := exec_eq_answer_follows hi hcut
    obtain ⟨hinitial, hwhole⟩ := issued_of_answer_follows hr ((hanswer s).symm.trans h)
    exact ⟨hinitial, fun v hv => .inl (hwhole v hv)⟩

end Sys2Proof.Machine

namespace Sys2Proof

/-! Packed records (R30). -/

/-- An append puts its first part above its second. -/
theorem toNat_append_eq_mul_add {m n : Nat} (x : BitVec m) (y : BitVec n) :
    (x ++ y).toNat = x.toNat * 2 ^ n + y.toNat := by
  rw [BitVec.toNat_append, ← Nat.shiftLeft_add_eq_or_of_lt y.isLt, Nat.shiftLeft_eq]

theorem toNat_pack (c : Command) : c.pack.toNat =
    c.cmd.toNat + c.p0.toNat * 2 ^ 3 + c.p1.toNat * 2 ^ 131 + c.liq.toNat * 2 ^ 259 + c.amount.toNat * 2 ^ 387 := by
  simp only [Command.pack, toNat_append_eq_mul_add]
  omega

/-- Each field is the digits of the record's number at its bits. -/
theorem unpack_pack (c : Command) : Command.unpack c.pack = c := by
  obtain ⟨cmd, p0, p1, liq, amount⟩ := c
  simp only [Command.unpack, Command.mk.injEq]
  refine ⟨?_, ?_, ?_, ?_, ?_⟩
  all_goals
    apply BitVec.eq_of_toNat_eq
    rw [BitVec.extractLsb'_toNat, Nat.shiftRight_eq_div_pow, toNat_pack]
    dsimp only
    omega

/-- The fields of a record are adjacent and cover it. -/
theorem pack_unpack (w : BitVec 451) : (Command.unpack w).pack = w := by
  apply BitVec.eq_of_toNat_eq
  rw [toNat_pack]
  simp only [Command.unpack, BitVec.extractLsb'_toNat, Nat.shiftRight_eq_div_pow]
  omega

/-- Settles O13: the record's number, and both ways through it. -/
theorem recordFieldsStandAtTheirBits : Obligations.RecordFieldsStandAtTheirBits :=
  ⟨toNat_pack, unpack_pack, pack_unpack⟩

/-! Decoding what is encoded (R31, R40). -/

section
variable (m : RoundingMode) (p0 p1 liq : Native) (amount : Amount)

theorem decodeCommand_deltaA : decodeCommand ⟨cmdField m 0b00#2, p0, p1, liq, amount⟩ = .deltaA m p0 p1 liq := by
  cases m <;> simp [decodeCommand, cmdField, RoundingMode.bit, RoundingMode.ofBit]

theorem decodeCommand_deltaB : decodeCommand ⟨cmdField m 0b01#2, p0, p1, liq, amount⟩ = .deltaB m p0 p1 liq := by
  cases m <;> simp [decodeCommand, cmdField, RoundingMode.bit, RoundingMode.ofBit]

theorem decodeCommand_liqA : decodeCommand ⟨cmdField m 0b10#2, p0, p1, liq, amount⟩ = .liqA m p0 p1 amount := by
  cases m <;> simp [decodeCommand, cmdField, RoundingMode.bit, RoundingMode.ofBit]

theorem decodeCommand_liqB : decodeCommand ⟨cmdField m 0b11#2, p0, p1, liq, amount⟩ = .liqB m p0 p1 amount := by
  cases m <;> simp [decodeCommand, cmdField, RoundingMode.bit, RoundingMode.ofBit]

theorem decodeLabel_rdiv (w : OutWidth) : decodeLabel (unitLabel w.bit m.bit 0b0011#4) = .ok (.rdiv m w) := by
  cases m <;> cases w <;> rfl

theorem decodeLabel_wnar (w : OutWidth) : decodeLabel (unitLabel w.bit 0 0b1000#4) = .ok (.wnar w) := by
  cases w <;> rfl

end

/-- Settles O14: the eight values of `cmd` are the four operations in the two modes. -/
theorem cmdFieldChoosesTheOperation : Obligations.CmdFieldChoosesTheOperation := fun p0 p1 liq amount =>
  ⟨decodeCommand_deltaA .down p0 p1 liq amount, decodeCommand_deltaA .up p0 p1 liq amount,
    decodeCommand_deltaB .down p0 p1 liq amount, decodeCommand_deltaB .up p0 p1 liq amount,
    decodeCommand_liqA .down p0 p1 liq amount, decodeCommand_liqA .up p0 p1 liq amount,
    decodeCommand_liqB .down p0 p1 liq amount, decodeCommand_liqB .up p0 p1 liq amount⟩

/-- A packed record decodes as the record itself. -/
theorem decode_command_pack (c : Command) : decode (.command c.pack) = .ok (decodeCommand c) := by
  rw [decode, unpack_pack]

/-- Settles O11: a command's record comes back whole, and `cmd` or the label is a row of R31 or R40. -/
theorem decodeOfEncode : Obligations.DecodeOfEncode := by
  intro i
  cases i with
  | deltaA m p0 p1 liq => rw [encode, decode_command_pack, decodeCommand_deltaA]
  | deltaB m p0 p1 liq => rw [encode, decode_command_pack, decodeCommand_deltaB]
  | liqA m p0 p1 amount => rw [encode, decode_command_pack, decodeCommand_liqA]
  | liqB m p0 p1 amount => rw [encode, decode_command_pack, decodeCommand_liqB]
  | rdiv m w => exact decodeLabel_rdiv m w
  | wnar w => exact decodeLabel_wnar w
  | _ => rfl

/-- Settles O10: the words are literals, which the decoder evaluates. -/
theorem sampleWordsDecode : Obligations.SampleWordsDecode := by
  unfold Obligations.SampleWordsDecode
  decide

/-! Statuses and responses (R35, R36). -/

theorem ofCode_code (st : Status) : Status.ofCode st.code = some st := by
  cases st with
  | ok => rfl
  | failed f => cases f <;> rfl

/-- Settles O15: R36's table read forwards, then backwards. -/
theorem statusCodesAreSix : Obligations.StatusCodesAreSix :=
  ⟨rfl, rfl, rfl, rfl, rfl, rfl, ofCode_code, rfl, rfl⟩

/-- The `result` bits of a packed response: its value, or the meaningless `x` (log entry 12). -/
def Response.resultBits (x : Native) : Response → Native
  | .ok v => v
  | .err _ => x

/-- R35: a packed response is its `result` bits above its status code. -/
theorem pack_eq_append (x : Native) (r : Response) : r.pack x = r.resultBits x ++ r.status.code := by
  cases r <;> rfl

theorem toNat_packResponse (x : Native) (r : Response) :
    (r.pack x).toNat = (r.resultBits x).toNat * 2 ^ 3 + r.status.code.toNat := by
  rw [pack_eq_append, toNat_append_eq_mul_add]

theorem unpack_packResponse (x : Native) (r : Response) : Response.unpack (r.pack x) = some r := by
  have hstatus : (r.pack x).extractLsb' 0 3 = r.status.code := by
    rw [pack_eq_append]
    exact BitVec.extractLsb'_append_eq_right
  have hresult : (r.pack x).extractLsb' 3 128 = r.resultBits x := by
    rw [pack_eq_append]
    exact BitVec.extractLsb'_append_eq_left
  rw [Response.unpack, hstatus, hresult, ofCode_code]
  cases r <;> rfl

/-- Settles O16: the fields are read back one by one, and as the low and high digits of the number. -/
theorem packedResponseReadsBack : Obligations.PackedResponseReadsBack := by
  intro r x
  have hcode := r.status.code.isLt
  have hnum := toNat_packResponse x r
  refine ⟨unpack_packResponse x r, by omega, ?_⟩
  rintro v rfl
  have hdiv : ((Response.ok v).pack x).toNat / 8 = ((Response.ok v).resultBits x).toNat := by omega
  exact hdiv

/-! Written calls (R38). -/

/-- A call passes all four checks exactly when each of its numbers is in range. -/
theorem problem_eq_none_iff (c : Call) : c.problem = none ↔
    c.p0 < 2 ^ Config.NW ∧ c.p1 < 2 ^ Config.NW ∧ c.x < 2 ^ c.name.operandWidth ∧ c.roundUp < 2 := by
  unfold Call.problem
  split_ifs <;> simp only [true_iff, false_iff] <;> omega

theorem wellFormed_iff_problem (c : Call) : c.wellFormed = true ↔ c.problem = none :=
  Option.isNone_iff_eq_none

theorem assembles_iff_problem (c : Call) : (∃ i, c.assemble = .ok i) ↔ c.problem = none := by
  unfold Call.assemble
  cases c.problem with
  | some e => simp
  | none => cases c.name <;> simp

/-- The rounding mode keeps a `round_up` that is a bit. -/
theorem roundUp_of_mode {c : Call} (h : c.roundUp < 2) : (if c.mode = .up then 1 else 0) = c.roundUp := by
  unfold Call.mode
  by_cases h0 : c.roundUp = 0
  · simp [h0]
  · have h1 : c.roundUp = 1 := by omega
    simp [h1]

/-- Settles O17: the four checks are the four ranges, and a number in its port's range is not changed by the port. -/
theorem writtenCallKeepsItsNumbers : Obligations.WrittenCallKeepsItsNumbers := by
  refine ⟨fun c => ?_, fun c => ?_, fun c i h => ?_⟩
  · rw [wellFormed_iff_problem, problem_eq_none_iff]
    rcases c with ⟨name, p0, p1, x, roundUp⟩
    cases name <;> simp only [CallName.operandWidth, Config.NW, Config.AIW] <;> omega
  · rw [wellFormed_iff_problem, assembles_iff_problem]
  · have hnone := (assembles_iff_problem c).1 ⟨i, h⟩
    obtain ⟨hp0, hp1, hx, hr⟩ := (problem_eq_none_iff c).1 hnone
    have hmode := roundUp_of_mode hr
    rw [Call.assemble, hnone] at h
    rcases c with ⟨name, p0, p1, x, roundUp⟩
    cases name
    all_goals
      cases h
      simp only [CallName.operandWidth] at hx
      simp only [BitVec.toNat_ofNat, hmode, Nat.mod_eq_of_lt hp0, Nat.mod_eq_of_lt hp1, Nat.mod_eq_of_lt hx]

end Sys2Proof

namespace Sys2Proof.Machine

open Sys2Proof.Safety

/-! Table words (log entries 9 and 10). -/

/-- A table word that reads as an instruction is an encoding that decodes to it. -/
theorem decodeTableWord_eq_some {nbits w : Nat} {i : Instr} (h : decodeTableWord nbits w = some i) :
    ∃ e, tableEncoding nbits w = some e ∧ decode e = .ok i := by
  unfold decodeTableWord at h
  cases he : tableEncoding nbits w with
  | none => rw [he] at h; cases h
  | some e =>
    simp only [he] at h
    cases hd : decode e with
    | ok j => rw [hd] at h; cases h; exact ⟨e, rfl, hd⟩
    | error u => rw [hd] at h; cases h

/-- Settles O3: a record stands on the ports when the step decodes it, a label leaves them as they are. -/
theorem presentedTableWordRunsNext : Obligations.PresentedTableWordRunsNext := by
  intro s nbits w i h
  obtain ⟨e, he, hd⟩ := decodeTableWord_eq_some h
  rw [State.withFetchWord, he]
  cases e with
  | command x =>
    cases hd
    refine ⟨Command.unpack x, step_present s _, ?_, ?_⟩
    · rintro y hy
      cases hy
      rfl
    · intro hi
      rw [isCommand_decodeCommand] at hi
      cases hi
  | label u =>
    exact ⟨s.ports, step_of_label rfl hd, (fun _ hx => by cases hx), fun _ => rfl⟩

end Sys2Proof.Machine
end

section
/-! PROOFS. The wide-integer units (40_wideint.md section 2, R50 to R56), each run by itself on its operand wires, and the labels that
name a unit (30_encoding.md R40). -/

namespace Sys2Proof

/-! The labels of a unit (R40). -/

/-- The unit column of R40's table; a command has no unit. -/
def unitCode : Instr → Option (BitVec 4)
  | .deltaA _ _ _ _ => none
  | .deltaB _ _ _ _ => none
  | .liqA _ _ _ _ => none
  | .liqB _ _ _ _ => none
  | .absd => some 0b0000#4
  | .fmul => some 0b0001#4
  | .cshl => some 0b0010#4
  | .rdiv _ _ => some 0b0011#4
  | .wadd => some 0b0100#4
  | .wsub => some 0b0101#4
  | .wcmp => some 0b0110#4
  | .wshl => some 0b0111#4
  | .wnar _ => some 0b1000#4
  | .wmul => some 0b1001#4

/-- The mode and width bits of a label are those of an instruction, where its unit reads them. -/
def ReadBitsAgree (u : BitVec 6) : Instr → Prop
  | .rdiv m w => .ofBit (u.getLsbD 4) = m ∧ .ofBit (u.getLsbD 5) = w
  | .wnar w => .ofBit (u.getLsbD 5) = w
  | _ => True

/-- R40's table, whole: a label is an instruction's exactly when the unit is its own and the bits that unit reads agree. -/
theorem decodeLabel_eq_ok_iff (u : BitVec 6) (i : Instr) :
    decodeLabel u = .ok i ↔ unitCode i = some (u.extractLsb' 0 4) ∧ ReadBitsAgree u i := by
  constructor
  · intro h
    unfold decodeLabel at h
    split at h
    case h_11 => cases h
    all_goals
      rename_i hu
      cases h
      rw [unit_eq_ofNat hu]
      simp [unitCode, ReadBitsAgree]
  · rintro ⟨hunit, hbits⟩
    cases i with
    | deltaA | deltaB | liqA | liqB => cases hunit
    | rdiv m w =>
      obtain ⟨rfl, rfl⟩ := hbits
      rw [decodeLabel, ← Option.some.inj hunit]
      rfl
    | wnar w =>
      cases hbits
      rw [decodeLabel, ← Option.some.inj hunit]
      rfl
    | _ =>
      rw [decodeLabel, ← Option.some.inj hunit]
      rfl

/-- The mode and width bits do not matter to a unit that reads neither. -/
theorem decodeLabel_iff_unit {i : Instr} {k : BitVec 4} (hunit : unitCode i = some k) (hbits : ∀ u, ReadBitsAgree u i)
    (u : BitVec 6) : decodeLabel u = .ok i ↔ u.extractLsb' 0 4 = k := by
  rw [decodeLabel_eq_ok_iff, hunit, and_iff_left (hbits u), Option.some.injEq, eq_comm]

theorem OutWidth.ofBit_eq_iff (b : Bool) (w : OutWidth) : OutWidth.ofBit b = w ↔ (b = true ↔ w = .w128) := by
  revert b
  cases w <;> decide

end Sys2Proof

namespace Sys2Proof.Machine

open Sys2Proof.Safety

/-! A unit run by itself (log entry 5). -/

section
variable {α : Type} {i : Instr} {s : State} {r : Run α} {value : α → UnitValue} {l : List UnitCall}

theorem yields_of_ok {v : α} (hexec : exec i s = s.bench r value) (hr : r = ⟨l, .ok v⟩) : Yields i s (.ok (value v)) := by
  rw [Yields, hexec]
  exact bench_of_ok (by rw [hr]) s value

theorem yields_of_error {f : Failure} (hexec : exec i s = s.bench r value) (hr : r = ⟨l, .error f⟩) :
    Yields i s (.fail f) := by
  rw [Yields, hexec]
  exact bench_of_error (by rw [hr]) s value

end

/-! Values as numbers. -/

/-- The smaller from the larger, as R50 writes it. -/
theorem gap_eq_ite (a b : Native) :
    gap a b = if a.toNat > b.toNat then a.toNat - b.toNat else b.toNat - a.toNat := by
  unfold gap
  split_ifs <;> omega

/-- The carry is what the sum of two WideValues has above `2^256`, at most 1. -/
theorem toNat_carry (a b : Wide) : (carry a b).toNat = (a.toNat + b.toNat) / 2 ^ 256 := by
  have ha := a.isLt
  have hb := b.isLt
  rw [carry, Nat.toNat_testBit]
  exact Nat.mod_eq_of_lt (by omega)

/-- R53's three cases. -/
theorem order_cases (a b : Wide) :
    (a = b ∧ order a b = 0b00#2) ∨ (a.toNat < b.toNat ∧ order a b = 0b01#2) ∨
      (b.toNat < a.toNat ∧ order a b = 0b10#2) := by
  unfold order
  split_ifs with heq hlt
  · exact .inl ⟨BitVec.eq_of_toNat_eq heq, rfl⟩
  · exact .inr (.inl ⟨hlt, rfl⟩)
  · exact .inr (.inr ⟨by omega, rfl⟩)

/-- Each code stands for its own case alone. -/
theorem order_threeWay (a b : Wide) :
    order a b ≠ 0b11#2 ∧ (order a b = 0b00#2 ↔ a = b) ∧ (order a b = 0b01#2 ↔ a.toNat < b.toNat) ∧
      (order a b = 0b10#2 ↔ b.toNat < a.toNat) := by
  obtain ⟨rfl, ho⟩ | ⟨h, ho⟩ | ⟨h, ho⟩ := order_cases a b
  · rw [ho]
    exact ⟨by decide, iff_of_true rfl rfl, iff_of_false (by decide) (lt_irrefl _), iff_of_false (by decide) (lt_irrefl _)⟩
  · have hne : a ≠ b := fun hab => h.ne (congrArg BitVec.toNat hab)
    rw [ho]
    exact ⟨by decide, iff_of_false (by decide) hne, iff_of_true rfl h, iff_of_false (by decide) h.asymm⟩
  · have hne : a ≠ b := fun hab => h.ne' (congrArg BitVec.toNat hab)
    rw [ho]
    exact ⟨by decide, iff_of_false (by decide) hne, iff_of_false (by decide) h.asymm, iff_of_true rfl h⟩

/-! The units. -/

/-- Settles O18: the value is the gap, whichever operand is larger. -/
theorem absdYieldsTheGap : Obligations.AbsdYieldsTheGap := by
  refine ⟨fun s => ⟨_, yields_of_ok (exec_absd s) (absd_eq _ _), ?_⟩, decodeLabel_iff_unit rfl fun _ => trivial⟩
  rw [toNat_gapBits, gap_eq_ite]

/-- Settles O19: the carry and the value are quotient and remainder of the sum by `2^256`. -/
theorem waddKeepsTheCarry : Obligations.WaddKeepsTheCarry := by
  refine ⟨fun s => ?_, decodeLabel_iff_unit rfl fun _ => trivial⟩
  have hyields := yields_of_ok (exec_wadd s) (wadd_eq _ _)
  refine ⟨_, _, hyields, ?_⟩
  rw [toNat_carry, BitVec.toNat_ofNat]
  exact Nat.div_add_mod' _ _

/-- Settles O20: the minuend is smaller or it is not. -/
theorem wsubIsExactOrUnderflows : Obligations.WsubIsExactOrUnderflows := by
  refine ⟨fun s h => yields_of_error (exec_wsub s) (wsub_of_lt h),
    fun s h => ⟨_, yields_of_ok (exec_wsub s) (wsub_of_le h), ?_⟩, decodeLabel_iff_unit rfl fun _ => trivial⟩
  rw [BitVec.toNat_ofNat]
  exact Nat.mod_eq_of_lt ((Nat.sub_le _ _).trans_lt s.wires.a256.isLt)

/-- Settles O21: the code is `order`'s. -/
theorem wcmpIsThreeWay : Obligations.WcmpIsThreeWay :=
  ⟨fun s => ⟨_, yields_of_ok (exec_wcmp s) (wcmp_eq _ _), order_threeWay _ _⟩, decodeLabel_iff_unit rfl fun _ => trivial⟩

/-- Settles O22: the value is the shifted number, which the container cuts off only from `2^192` on. -/
theorem wshlShiftsModuloTheContainer : Obligations.WshlShiftsModuloTheContainer :=
  ⟨fun s => ⟨_, yields_of_ok (exec_wshl s) (wshl_eq _), toNat_shiftBits _, toNat_shiftBits_of_lt⟩,
    decodeLabel_iff_unit rfl fun _ => trivial⟩

/-- R55 at either width, failing. -/
theorem wnar_yields_overflow (w : OutWidth) (s : State) (h : 2 ^ w.bits ≤ s.wires.a256.toNat) :
    Yields (.wnar w) s (.fail .overflow) :=
  yields_of_error (exec_wnar w s) (wnar_of_le h)

/-- R55 at either width: the number is kept. -/
theorem wnar_yields_same_number (w : OutWidth) (s : State) (h : s.wires.a256.toNat < 2 ^ w.bits) :
    ∃ v, Yields (.wnar w) s (.ok (narrowed w v)) ∧ v.toNat = s.wires.a256.toNat := by
  refine ⟨_, yields_of_ok (exec_wnar w s) (wnar_of_lt h), ?_⟩
  rw [BitVec.toNat_ofNat]
  exact Nat.mod_eq_of_lt h

/-- R40's row of `WNAR`: the unit, and the width bit it reads. -/
theorem decodeLabel_eq_wnar_iff (u : BitVec 6) (w : OutWidth) :
    decodeLabel u = .ok (.wnar w) ↔ u.extractLsb' 0 4 = 0b1000#4 ∧ (u.getLsbD 5 = true ↔ w = .w128) := by
  rw [decodeLabel_eq_ok_iff, unitCode, ReadBitsAgree, OutWidth.ofBit_eq_iff, Option.some.injEq, eq_comm]

/-- Settles O23: both widths are the one rule at `w64` and at `w128`. -/
theorem wnarIsExactOrOverflows : Obligations.WnarIsExactOrOverflows :=
  ⟨wnar_yields_overflow .w64, wnar_yields_same_number .w64, wnar_yields_overflow .w128,
    wnar_yields_same_number .w128, decodeLabel_eq_wnar_iff⟩

/-- Settles O24: the product fits 256 bits or it does not. -/
theorem wmulIsExactOrOverflows : Obligations.WmulIsExactOrOverflows :=
  ⟨fun s h => yields_of_error (exec_wmul s) (wmul_of_le h),
    fun s h => ⟨_, yields_of_ok (exec_wmul s) (wmul_of_lt h), toNat_wideProductBits h⟩,
    decodeLabel_iff_unit rfl fun _ => trivial⟩

end Sys2Proof.Machine
end

section
/-! PROOFS. The full multiplier (41_full_multiply.md R60 and R63): the unit run by itself on its operand wires, and the laws of its
product. -/

namespace Sys2Proof.Machine

open Sys2Proof.Safety

/-- Settles O25: the value is the product, which 256 bits always hold. -/
theorem fmulIsExact : Obligations.FmulIsExact :=
  ⟨fun s => ⟨_, yields_of_ok (exec_fmul s) (fmul_eq _ _), toNat_productBits _ _⟩, decodeLabel_iff_unit rfl fun _ => trivial⟩

/-! The laws of R63, each from the exactness of `productBits`. -/

theorem productBits_comm (a b : Native) : productBits a b = productBits b a := by
  rw [productBits, productBits, Nat.mul_comm]

/-- A product is zero exactly when one of its operands is. -/
theorem productBits_eq_zero_iff (a b : Native) : productBits a b = 0 ↔ a = 0 ∨ b = 0 := by
  simp only [← BitVec.toNat_inj, toNat_productBits]
  exact Nat.mul_eq_zero

theorem productBits_zero (a : Native) : productBits a 0 = 0 := (productBits_eq_zero_iff a 0).2 (.inr rfl)

theorem toNat_productBits_one (a : Native) : (productBits a 1).toNat = a.toNat := by
  rw [toNat_productBits]
  exact Nat.mul_one _

/-- The factor of `LIQ_A` (R88, R90) is the shift by `K` as a number. -/
theorem toNat_productBits_scaleFactor (a : Native) : (productBits a Config.scaleFactor).toNat = a.toNat * 2 ^ 64 := by
  rw [toNat_productBits, scaleFactor_toNat]

/-- A product with the factor is below the limit of `CSHL`. -/
theorem toNat_productBits_scaleFactor_lt (a : Native) : (productBits a Config.scaleFactor).toNat < 2 ^ 192 := by
  have ha := a.isLt
  rw [toNat_productBits_scaleFactor]
  omega

theorem toNat_productBits_mono {a a' : Native} (h : a.toNat ≤ a'.toNat) (b : Native) :
    (productBits a b).toNat ≤ (productBits a' b).toNat := by
  rw [toNat_productBits, toNat_productBits]
  exact Nat.mul_le_mul_right _ h

/-- The product of the two largest operands. -/
theorem toNat_productBits_largest :
    (productBits (BitVec.ofNat 128 (2 ^ 128 - 1)) (BitVec.ofNat 128 (2 ^ 128 - 1))).toNat = 2 ^ 256 - 2 ^ 129 + 1 := by
  rw [toNat_productBits]
  decide

/-- Settles O26: the product function is `productBits`. -/
theorem fmulLaws : Obligations.FmulLaws :=
  ⟨productBits, fun a b => congrArg Run.outcome (fmul_eq a b), productBits_comm, productBits_zero, toNat_productBits_one,
    fun a => ⟨toNat_productBits_scaleFactor a, toNat_productBits_scaleFactor_lt a⟩, productBits_eq_zero_iff,
    fun _ _ b h => toNat_productBits_mono h b, toNat_productBits_largest⟩

end Sys2Proof.Machine
end

section
/-! PROOFS. The checked shifter (42_checked_scale.md R66 to R69): the unit run by itself on its operand wire, the forms of its test,
its boundary, and how it differs from the shifter it must not be. -/

namespace Sys2Proof.Machine

open Sys2Proof.Safety

/-! The outcome of the checked shift, and the wire that decides it (R66). -/

theorem cshl_outcome_eq_error_iff (v : Wide) : (cshl v).outcome = .error .scaleOverflow ↔ 2 ^ 192 ≤ v.toNat := by
  rcases Nat.lt_or_ge v.toNat (2 ^ 192) with h | h
  · rw [cshl_of_lt h]
    exact iff_of_false nofun (Nat.not_le.2 h)
  · rw [cshl_of_le h]
    exact iff_of_true rfl h

/-- A value comes out only of an operand below the limit. -/
theorem cshl_outcome_eq_ok_iff (v r : Wide) : (cshl v).outcome = .ok r ↔ v.toNat < 2 ^ 192 ∧ r = shiftBits v := by
  rcases Nat.lt_or_ge v.toNat (2 ^ 192) with h | h
  · rw [cshl_of_lt h, and_iff_right h, Except.ok.injEq, eq_comm]
  · rw [cshl_of_le h]
    exact iff_of_false nofun fun hr => Nat.not_le.2 hr.1 h

theorem ovf_order_scaleLimit (v : Wide) : ovf (order v Config.scaleLimit) = decide (2 ^ 192 ≤ v.toNat) := by
  rw [ovf_order, scaleLimit_toNat]

/-- Settles O27: the operand has reached the limit or it has not. -/
theorem cshlIsExactOrOverflows : Obligations.CshlIsExactOrOverflows := by
  refine ⟨fun s h => yields_of_error (exec_cshl s) (cshl_of_le h),
    fun s h => ⟨_, yields_of_ok (exec_cshl s) (cshl_of_lt h), toNat_shiftBits_of_lt h⟩, fun v => ?_,
    decodeLabel_iff_unit rfl fun _ => trivial⟩
  rw [ovf_order_scaleLimit, decide_eq_true_iff, cshl_outcome_eq_error_iff]

/-! The other forms of the test (R67). -/

/-- "Any set bit above bit 191" is the comparison with the limit. -/
theorem top_ne_zero_iff (v : Wide) : v.extractLsb' 192 64 ≠ 0 ↔ 2 ^ 192 ≤ v.toNat := by
  have hv := v.isLt
  rw [ne_eq, BitVec.ofNat_eq_ofNat, ← BitVec.toNat_inj, BitVec.extractLsb'_toNat, Nat.shiftRight_eq_div_pow, BitVec.toNat_zero]
  omega

/-- The product with `2^64` leaves the container exactly from the limit on. -/
theorem le_mul_two_pow_iff (v : Wide) : 2 ^ 256 ≤ v.toNat * 2 ^ 64 ↔ 2 ^ 192 ≤ v.toNat := by
  omega

/-- The low 64 bits of a shifted value are 0, whether the shift is exact or not. -/
theorem shiftBits_low (v : Wide) : (shiftBits v).extractLsb' 0 64 = 0 := by
  apply BitVec.eq_of_toNat_eq
  rw [BitVec.ofNat_eq_ofNat, BitVec.extractLsb'_toNat, toNat_shiftBits, Nat.shiftRight_zero, BitVec.toNat_zero]
  omega

/-- Settles O28: each form is the comparison with the limit, and below it the shift is exact. -/
theorem scaleTestHasThreeForms : Obligations.ScaleTestHasThreeForms := by
  intro v
  rw [top_ne_zero_iff, le_mul_two_pow_iff, cshl_outcome_eq_error_iff]
  refine ⟨Iff.rfl, Iff.rfl, Iff.rfl, fun r hr => ?_⟩
  obtain ⟨h, rfl⟩ := (cshl_outcome_eq_ok_iff v r).1 hr
  have hexact := toNat_shiftBits_of_lt h
  refine ⟨hexact, shiftBits_low v, ?_⟩
  rw [hexact]
  exact Nat.mul_div_cancel _ (Nat.two_pow_pos 64)

/-! The boundary (R68). -/

theorem boundaryRow_of_lt {v q : Nat} (h : v < 2 ^ 192) (hq : q = v * 2 ^ 64) : BoundaryRow v false (.ok q) := by
  have hv : (BitVec.ofNat 256 v).toNat = v := Nat.mod_eq_of_lt (by omega)
  refine ⟨?_, ?_⟩
  · rw [ovf_order_scaleLimit, hv]
    exact decide_eq_false (Nat.not_le.2 h)
  · refine (cshl_outcome_eq_ok_iff _ _).2 ⟨by rwa [hv], ?_⟩
    rw [shiftBits, hv, hq]

theorem boundaryRow_of_le {v : Nat} (h : 2 ^ 192 ≤ v) (hfit : v < 2 ^ 256) : BoundaryRow v true (.error .scaleOverflow) := by
  have hv : (BitVec.ofNat 256 v).toNat = v := Nat.mod_eq_of_lt hfit
  refine ⟨?_, ?_⟩
  · rw [ovf_order_scaleLimit, hv]
    exact decide_eq_true h
  · exact (cshl_outcome_eq_error_iff _).2 (by rwa [hv])

/-- Settles O29: four rows stand below the limit and six from it on. -/
theorem scaleBoundaryIsExact : Obligations.ScaleBoundaryIsExact := by
  refine ⟨boundaryRow_of_lt ?_ ?_, boundaryRow_of_lt ?_ ?_, boundaryRow_of_lt ?_ ?_, boundaryRow_of_lt ?_ ?_,
    boundaryRow_of_le ?_ ?_, boundaryRow_of_le ?_ ?_, boundaryRow_of_le ?_ ?_, boundaryRow_of_le ?_ ?_,
    boundaryRow_of_le ?_ ?_, boundaryRow_of_le ?_ ?_⟩ <;> decide

/-! The shifter the unit must not be (R69). -/

/-- Up to its own constant the defective shifter shifts, losing what does not fit. -/
theorem defectiveCshl_of_le {v : Wide} (h : v.toNat ≤ 2 ^ 256 - 2 ^ 192) : defectiveCshl v = .ok (shiftBits v) :=
  if_neg (by omega)

theorem defectiveCshl_of_lt {v : Wide} (h : 2 ^ 256 - 2 ^ 192 < v.toNat) : defectiveCshl v = .error .scaleOverflow :=
  if_pos (by omega)

/-- A shift keeps the low 192 bits of its operand and no others. -/
theorem toNat_shiftBits_eq_mod_mul (v : Wide) : (shiftBits v).toNat = v.toNat % 2 ^ 192 * 2 ^ 64 := by
  rw [toNat_shiftBits]
  exact Nat.mul_mod_mul_right (2 ^ 64) v.toNat (2 ^ 192)

/-- Settles O30: below the range both shift exactly, on it only the unit fails, above it both fail. -/
theorem defectiveShifterDiffersOnItsRange : Obligations.DefectiveShifterDiffersOnItsRange := by
  intro v
  refine ⟨?_, fun hlo hhi => ⟨(cshl_outcome_eq_error_iff v).2 hlo, shiftBits v, defectiveCshl_of_le hhi,
    toNat_shiftBits_eq_mod_mul v, ?_⟩⟩
  · rcases Nat.lt_or_ge v.toNat (2 ^ 192) with hlo | hlo
    · rw [cshl_of_lt hlo, defectiveCshl_of_le (by omega)]
      exact iff_of_true rfl (by omega)
    · rcases Nat.lt_or_ge (2 ^ 256 - 2 ^ 192) v.toNat with hhi | hhi
      · rw [cshl_of_le hlo, defectiveCshl_of_lt hhi]
        exact iff_of_true rfl (by omega)
      · rw [cshl_of_le hlo, defectiveCshl_of_le hhi]
        exact iff_of_false nofun (not_not_intro ⟨hlo, hhi⟩)
  · rw [toNat_shiftBits_eq_mod_mul]
    omega

end Sys2Proof.Machine
end

section
/-! PROOFS. The rounding divider (43_rounding_divide.md R71 to R75): the rounded quotient as a floor or a ceiling and its laws, and the
unit run by itself on its operand wires. -/

namespace Sys2Proof

theorem RoundingMode.ofBit_eq_iff (b : Bool) (m : RoundingMode) : RoundingMode.ofBit b = m ↔ (b = true ↔ m = .up) := by
  revert b
  cases m <;> decide

end Sys2Proof

namespace Sys2Proof.Machine

open Sys2Proof.Safety

/-! The rounded quotient (R72, R75). The laws of rounding up come from one fact: it gives the smallest `k` with `n ≤ d * k`. -/

/-- Step 3 of R71, both modes at once. -/
theorem roundedQuotient_eq_ite (n d : Nat) (m : RoundingMode) :
    roundedQuotient n d m = if m = .up ∧ n % d ≠ 0 then n / d + 1 else n / d := by
  cases m <;> simp [roundedQuotient]

theorem roundedQuotient_down (n d : Nat) : roundedQuotient n d .down = n / d := rfl

theorem roundedQuotient_up_of_dvd {n d : Nat} (h : d ∣ n) : roundedQuotient n d .up = n / d :=
  if_neg (not_not_intro (Nat.mod_eq_zero_of_dvd h))

theorem roundedQuotient_up_of_not_dvd {n d : Nat} (h : ¬ d ∣ n) : roundedQuotient n d .up = n / d + 1 :=
  if_pos (mt Nat.dvd_of_mod_eq_zero h)

/-- R72: for a positive numerator the sum of the ceiling formula is one full denominator above the numerator's predecessor. -/
theorem roundedQuotient_up_eq_ceilDiv (n : Nat) {d : Nat} (hd : 0 < d) : roundedQuotient n d .up = n ⌈/⌉ d := by
  rw [Nat.ceilDiv_eq_add_pred_div]
  cases n with
  | zero =>
    rw [roundedQuotient_up_of_dvd (dvd_zero d), Nat.zero_div, Nat.zero_add, Nat.div_eq_of_lt (Nat.sub_lt hd one_pos)]
  | succ k =>
    have hsum : (k + 1 + d - 1) / d = k / d + 1 := by
      rw [Nat.add_right_comm, Nat.add_sub_cancel, Nat.add_div_right k hd]
    rw [hsum]
    by_cases h : d ∣ k + 1
    · rw [roundedQuotient_up_of_dvd h, Nat.succ_div_of_dvd h]
    · rw [roundedQuotient_up_of_not_dvd h, Nat.succ_div_of_not_dvd h]

/-- Rounding up gives the smallest multiplier of the denominator that covers the numerator. -/
theorem roundedQuotient_up_le_iff {n d k : Nat} (hd : 0 < d) : roundedQuotient n d .up ≤ k ↔ n ≤ d * k := by
  rw [roundedQuotient_up_eq_ceilDiv n hd, ceilDiv_le_iff_le_mul hd]

theorem roundedQuotient_down_le_up (n d : Nat) : roundedQuotient n d .down ≤ roundedQuotient n d .up := by
  by_cases h : d ∣ n
  · exact (roundedQuotient_up_of_dvd h).ge
  · exact (Nat.le_succ _).trans_eq (roundedQuotient_up_of_not_dvd h).symm

theorem roundedQuotient_up_eq_down_iff_dvd (n d : Nat) : roundedQuotient n d .up = roundedQuotient n d .down ↔ d ∣ n := by
  by_cases h : d ∣ n
  · exact iff_of_true (roundedQuotient_up_of_dvd h) h
  · rw [roundedQuotient_up_of_not_dvd h]
    exact iff_of_false (Nat.succ_ne_self _) h

theorem le_mul_roundedQuotient_up (n : Nat) {d : Nat} (hd : 0 < d) : n ≤ d * roundedQuotient n d .up :=
  (roundedQuotient_up_le_iff hd).1 le_rfl

/-- One less than the ceiling no longer covers a positive numerator. -/
theorem mul_roundedQuotient_up_pred_lt {n d : Nat} (hd : 0 < d) (hn : 0 < n) : d * (roundedQuotient n d .up - 1) < n := by
  have hpos : 0 < roundedQuotient n d .up := Nat.pos_of_mul_pos_left (hn.trans_le (le_mul_roundedQuotient_up n hd))
  exact Nat.not_le.1 fun h => Nat.not_le.2 (Nat.sub_lt hpos one_pos) ((roundedQuotient_up_le_iff hd).2 h)

/-- A larger numerator has no smaller quotient. -/
theorem roundedQuotient_mono_numerator {n n' d : Nat} (m : RoundingMode) (hd : 0 < d) (h : n ≤ n') :
    roundedQuotient n d m ≤ roundedQuotient n' d m := by
  cases m with
  | down => exact Nat.div_le_div_right h
  | up => exact (roundedQuotient_up_le_iff hd).2 (h.trans (le_mul_roundedQuotient_up n' hd))

/-- A larger denominator has no larger quotient. -/
theorem roundedQuotient_anti_denominator (n : Nat) {d d' : Nat} (m : RoundingMode) (hd : 0 < d) (h : d ≤ d') :
    roundedQuotient n d' m ≤ roundedQuotient n d m := by
  cases m with
  | down => exact Nat.div_le_div_left h hd
  | up => exact (roundedQuotient_up_le_iff (hd.trans_le h)).2 ((le_mul_roundedQuotient_up n hd).trans (Nat.mul_le_mul_right _ h))

/-- Settles O33: up is the ceiling, and the largest WideValue divided by itself is where the wrapped sum goes wrong. -/
theorem roundingUpIsTheCeiling : Obligations.RoundingUpIsTheCeiling :=
  ⟨fun n _ hd => roundedQuotient_up_eq_ceilDiv n hd, fun n d _ => roundedQuotient_down n d,
    fun _ _ m hd hn => (roundedQuotient_le_numerator m hd).trans_lt hn,
    2 ^ 256 - 1, 2 ^ 256 - 1, by decide⟩

/-! The narrowed quotient (R73, R74). -/

/-- `RDIV` ends with a value exactly when it can divide and the rounded quotient fits. -/
theorem rdiv_outcome_ok_iff (n d : Wide) (m : RoundingMode) (w : OutWidth) :
    (∃ v, (rdiv n d m w).outcome = .ok v) ↔ d.toNat ≠ 0 ∧ roundedQuotient n.toNat d.toNat m < 2 ^ w.bits := by
  obtain ⟨hd, h⟩ | ⟨hd, q, hq, ⟨hfit, h⟩ | ⟨hover, h⟩⟩ := rdiv_cases n d m w
  · rw [h]
    exact iff_of_false nofun fun hok => hok.1 hd
  · rw [h, ← hq]
    exact iff_of_true ⟨_, rfl⟩ ⟨hd, hfit⟩
  · rw [h, ← hq]
    exact iff_of_false nofun fun hok => Nat.not_le.2 hok.2 hover

/-- R75: rounding up never succeeds where rounding down fails. -/
theorem rdiv_down_ok_of_up_ok {n d : Wide} {w : OutWidth} (h : ∃ v, (rdiv n d .up w).outcome = .ok v) :
    ∃ v, (rdiv n d .down w).outcome = .ok v := by
  obtain ⟨hd, hfit⟩ := (rdiv_outcome_ok_iff n d .up w).1 h
  exact (rdiv_outcome_ok_iff n d .down w).2 ⟨hd, (roundedQuotient_down_le_up _ _).trans_lt hfit⟩

/-- R74's edge: half of `2^(ow+1) - 1` is the largest value of the width and a remainder. -/
theorem rdiv_up_overflows_above_largest (w : OutWidth) :
    ∃ n d v, (rdiv n d .down w).outcome = .ok v ∧ v.toNat = 2 ^ w.bits - 1 ∧ n.toNat % d.toNat ≠ 0 ∧
      (rdiv n d .up w).outcome = .error .resultOverflow := by
  cases w with
  | w64 => exact ⟨BitVec.ofNat 256 (2 ^ 65 - 1), 2, .allOnes 64, by decide⟩
  | w128 => exact ⟨BitVec.ofNat 256 (2 ^ 129 - 1), 2, .allOnes 128, by decide⟩

/-- Settles O34: floor and ceiling by their bounds, and the narrowing by the first law. -/
theorem divisionLaws : Obligations.DivisionLaws := by
  refine ⟨fun n d hd => ⟨roundedQuotient_down_le_up n d, roundedQuotient_le n d .up,
      roundedQuotient_up_eq_down_iff_dvd n d, Nat.mul_div_le n d, Nat.lt_mul_div_succ n hd,
      fun hn => ⟨mul_roundedQuotient_up_pred_lt hd hn, le_mul_roundedQuotient_up n hd⟩, ?_⟩,
    fun _ _ _ m hd h => roundedQuotient_mono_numerator m hd h,
    fun n _ _ m hd h => roundedQuotient_anti_denominator n m hd h,
    fun _ _ _ v h => rdiv_down_ok_of_up_ok ⟨v, h⟩, rdiv_up_overflows_above_largest⟩
  rintro rfl
  exact Nat.eq_zero_of_le_zero (roundedQuotient_le_numerator .up hd)

/-! The unit (R71). -/

section
variable (m : RoundingMode) (w : OutWidth) {s : State}

theorem rdiv_yields_divisionByZero (h : s.wires.b256 = 0) : Yields (.rdiv m w) s (.fail .divisionByZero) :=
  yields_of_error (exec_rdiv m w s) (rdiv_of_zero (congrArg BitVec.toNat h))

variable (hd : s.wires.b256.toNat ≠ 0)
include hd

/-- At either width a rounded quotient that fits is the value. -/
theorem rdiv_yields_quotient (h : roundedQuotient s.wires.a256.toNat s.wires.b256.toNat m < 2 ^ w.bits) :
    ∃ v, Yields (.rdiv m w) s (.ok (narrowed w v)) ∧
      v.toNat = roundedQuotient s.wires.a256.toNat s.wires.b256.toNat m := by
  refine ⟨_, yields_of_ok (exec_rdiv m w s) (rdiv_of_lt hd h), ?_⟩
  rw [BitVec.toNat_ofNat]
  exact Nat.mod_eq_of_lt h

theorem rdiv_yields_resultOverflow (h : 2 ^ w.bits ≤ roundedQuotient s.wires.a256.toNat s.wires.b256.toNat m) :
    Yields (.rdiv m w) s (.fail .resultOverflow) :=
  yields_of_error (exec_rdiv m w s) (rdiv_of_le hd h)

end

/-- R40's row of `RDIV`: the unit, and the mode and width bits it reads. -/
theorem decodeLabel_eq_rdiv_iff (u : BitVec 6) (m : RoundingMode) (w : OutWidth) :
    decodeLabel u = .ok (.rdiv m w) ↔
      u.extractLsb' 0 4 = 0b0011#4 ∧ (u.getLsbD 4 = true ↔ m = .up) ∧ (u.getLsbD 5 = true ↔ w = .w128) := by
  rw [decodeLabel_eq_ok_iff, unitCode, ReadBitsAgree, RoundingMode.ofBit_eq_iff, OutWidth.ofBit_eq_iff, Option.some.injEq,
    eq_comm]

/-- Settles O32: the quotient is `roundedQuotient`, and both widths are the one rule at `w64` and at `w128`. -/
theorem rdivRoundsThenNarrows : Obligations.RdivRoundsThenNarrows := by
  refine ⟨fun s m w h => rdiv_yields_divisionByZero m w h, fun s m w h => ?_, decodeLabel_eq_rdiv_iff⟩
  have hd : s.wires.b256.toNat ≠ 0 := fun hzero => h (BitVec.eq_of_toNat_eq hzero)
  refine ⟨roundedQuotient s.wires.a256.toNat s.wires.b256.toNat m, roundedQuotient_eq_ite _ _ m, ?_, ?_,
    rdiv_yields_resultOverflow m w hd⟩
  · rintro rfl hfit
    exact rdiv_yields_quotient m .w64 hd hfit
  · rintro rfl hfit
    exact rdiv_yields_quotient m .w128 hd hfit

end Sys2Proof.Machine
end

section
/-! PROOFS. The four conversions (44_delta_math.md): each answers its closed form on all operands (R83, R86, R89, R93); what that
form says of a value or a failure; and R84, R91, R93, R94, R95 and R97, which are properties of the closed forms. -/

namespace Sys2Proof.Machine

open Sys2Proof.Safety

/-! How a run answers. -/

/-- The response that a run ends a call with, its value put on the result port by `place`. -/
def Run.response {α : Type} (place : α → Native) (r : Run α) : Response :=
  match r.outcome with
  | .ok v => .ok (place v)
  | .error f => .err f

section
variable {α : Type} (place : α → Native)

theorem Run.response_mk_ok (l : List UnitCall) (v : α) : (⟨l, .ok v⟩ : Run α).response place = .ok (place v) := rfl

theorem Run.response_mk_error (l : List UnitCall) (f : Failure) : (⟨l, .error f⟩ : Run α).response place = .err f := rfl

/-- The log has no part in the response. -/
theorem Run.response_mk_outcome (l : List UnitCall) (r : Run α) :
    (⟨l, r.outcome⟩ : Run α).response place = r.response place := rfl

variable {place}

theorem answers_of_exec_eq_answer {i : Instr} {s : State} {r : Run α} (h : exec i s = s.answer (r.map place)) :
    Answers i s (r.response place) := by
  rw [Answers, h, Run.response]
  cases hout : r.outcome with
  | ok v => exact ⟨_, answer_of_ok (Run.map_of_ok hout place) s⟩
  | error f => exact ⟨_, answer_of_error (Run.map_of_error hout place) s⟩

end

theorem responseOf_of_answers {i : Instr} {s : State} {r : Response} (h : Answers i s r) :
    responseOf (exec i s) = some r := by
  obtain ⟨issued, hexec⟩ := h
  rw [hexec, responseOf]

/-! The rounded quotient as D0 writes it (R72). As a Lean quotient it is 0 at a zero denominator, so
most laws need no condition. -/

theorem rounded_down (n d : Nat) : rounded .down n d = n / d := rfl

theorem rounded_up (n d : Nat) : rounded .up n d = (n + d - 1) / d := rfl

theorem roundedQuotient_eq_rounded (n : Nat) {d : Nat} (m : RoundingMode) (hd : 0 < d) :
    roundedQuotient n d m = rounded m n d := by
  cases m with
  | down => rfl
  | up => rw [roundedQuotient_up_eq_ceilDiv n hd, Nat.ceilDiv_eq_add_pred_div, rounded_up]

theorem rounded_zero (m : RoundingMode) (d : Nat) : rounded m 0 d = 0 := by
  cases m with
  | down => exact Nat.zero_div d
  | up =>
    rw [rounded_up, Nat.div_eq_zero_iff]
    omega

theorem rounded_mono (m : RoundingMode) {n n' : Nat} (d : Nat) (h : n ≤ n') : rounded m n d ≤ rounded m n' d := by
  cases m with
  | down => exact Nat.div_le_div_right h
  | up => exact Nat.div_le_div_right (by omega)

theorem rounded_down_le_up (n d : Nat) : rounded .down n d ≤ rounded .up n d := by
  rcases Nat.eq_zero_or_pos d with rfl | hd
  · rw [rounded_down, Nat.div_zero]
    exact Nat.zero_le _
  · exact Nat.div_le_div_right (by omega)

theorem rounded_up_le_down_add_one (n d : Nat) : rounded .up n d ≤ rounded .down n d + 1 := by
  rcases Nat.eq_zero_or_pos d with rfl | hd
  · rw [rounded_up, Nat.div_zero]
    exact Nat.zero_le _
  · rw [rounded_up, rounded_down, ← Nat.add_div_right n hd]
    exact Nat.div_le_div_right (Nat.sub_le _ _)

theorem rounded_le_numerator (m : RoundingMode) (n : Nat) {d : Nat} (hd : 0 < d) : rounded m n d ≤ n := by
  rw [← roundedQuotient_eq_rounded n m hd]
  exact roundedQuotient_le_numerator m hd

section
variable (n : Nat) {d : Nat} (hd : 0 < d)
include hd

theorem le_mul_rounded_up : n ≤ d * rounded .up n d := by
  rw [← roundedQuotient_eq_rounded n .up hd]
  exact le_mul_roundedQuotient_up n hd

theorem mul_rounded_up_lt : d * rounded .up n d < n + d :=
  (Nat.mul_div_le (n + d - 1) d).trans_lt (by omega)

theorem lt_mul_rounded_down_add : n < d * rounded .down n d + d :=
  Nat.lt_mul_div_succ n hd

end

/-- The narrowed value of a response (R71 step 4). -/
theorem fitting_eq_ok_iff {n q : Nat} {v : Native} (hn : n ≤ 128) :
    fitting n q = .ok v ↔ q < 2 ^ n ∧ v.toNat = q := by
  unfold fitting
  split_ifs with hfit
  · have hq : (BitVec.ofNat 128 q).toNat = q :=
      Nat.mod_eq_of_lt (hfit.trans_le (Nat.pow_le_pow_right two_pos hn))
    rw [Response.ok.injEq, and_iff_right hfit, ← BitVec.toNat_inj, hq, eq_comm]
  · exact iff_of_false nofun fun h => hfit h.1

theorem eq_resultOverflow_of_fitting_eq_err {n q : Nat} {f : Failure} (h : fitting n q = .err f) :
    f = .resultOverflow := by
  unfold fitting at h
  split_ifs at h
  cases h
  rfl

/-! A call that ends with its division (R71). -/

section
variable {n d : Wide} {m : RoundingMode} {w : OutWidth} (place : BitVec w.bits → Native)

theorem rdiv_response_of_zero (hd : d.toNat = 0) : (rdiv n d m w).response place = .err .divisionByZero := by
  rw [rdiv_of_zero hd, Run.response_mk_error]

/-- A placement that keeps the number gives the rounded quotient if it fits. -/
theorem rdiv_response (hplace : ∀ v, (place v).toNat = v.toNat) (hd : d.toNat ≠ 0) :
    (rdiv n d m w).response place = fitting w.bits (rounded m n.toNat d.toNat) := by
  rw [← roundedQuotient_eq_rounded _ m (Nat.pos_of_ne_zero hd)]
  have hw : w.bits ≤ 128 := by cases w <;> decide
  rcases Nat.lt_or_ge (roundedQuotient n.toNat d.toNat m) (2 ^ w.bits) with hfit | hover
  · rw [rdiv_of_lt hd hfit, Run.response_mk_ok, eq_comm, fitting_eq_ok_iff hw, hplace, BitVec.toNat_ofNat]
    exact ⟨hfit, Nat.mod_eq_of_lt hfit⟩
  · rw [rdiv_of_le hd hover, Run.response_mk_error, fitting, if_neg (Nat.not_lt.2 hover)]

end

theorem toNat_placeAmount (v : Amount) : (placeAmount v).toNat = v.toNat :=
  BitVec.toNat_setWidth_of_le (by decide)

theorem toNat_placeLiquidity (v : Native) : (placeLiquidity v).toNat = v.toNat := rfl

/-! The closed forms. -/

theorem gap_pos {p0 p1 : Native} (h : p0 ≠ p1) : 0 < gap p0 p1 :=
  Nat.pos_of_ne_zero (mt (gap_eq_zero p0 p1).1 h)

/-- The denominator of `DELTA_A` is 0 exactly when a price is. -/
theorem prices_mul_eq_zero_iff (p0 p1 : Native) : p0.toNat * p1.toNat = 0 ↔ p0 = 0 ∨ p1 = 0 := by
  rw [← toNat_productBits, ← productBits_eq_zero_iff, ← BitVec.toNat_inj, BitVec.ofNat_eq_ofNat, BitVec.toNat_zero]

/-- R82, then R83 (1), (2), (3). -/
theorem deltaA_response (m : RoundingMode) (p0 p1 liq : Native) :
    (deltaA m p0 p1 liq).response placeAmount = deltaAResponse m p0 p1 liq := by
  unfold deltaAResponse
  split_ifs with hcut hscale hzero
  · rw [deltaA_shortCut hcut]
    rfl
  · rw [deltaA_scaleOverflow hcut hscale, Run.response_mk_error]
  · rw [deltaA_division hcut (Nat.not_le.1 hscale), Run.response_mk_outcome]
    refine rdiv_response_of_zero (w := .w64) _ ?_
    rwa [toNat_productBits, prices_mul_eq_zero_iff]
  · have hd : (productBits p0 p1).toNat ≠ 0 := by rwa [toNat_productBits, Ne, prices_mul_eq_zero_iff]
    rw [deltaA_division hcut (Nat.not_le.1 hscale), Run.response_mk_outcome, rdiv_response (w := .w64) _ toNat_placeAmount hd,
      toNat_deltaA_numerator (Nat.not_le.1 hscale), toNat_productBits]

/-- R86: the denominator is never 0. -/
theorem deltaB_response (m : RoundingMode) (p0 p1 liq : Native) :
    (deltaB m p0 p1 liq).response placeAmount = deltaBResponse m p0 p1 liq := by
  have hd : Config.bDivisor.toNat ≠ 0 := by
    rw [bDivisor_toNat]
    exact (Nat.two_pow_pos _).ne'
  rw [deltaB_division, Run.response_mk_outcome, rdiv_response (w := .w64) _ toNat_placeAmount hd, bDivisor_toNat,
    toNat_productBits, toNat_gapBits, deltaBResponse]

/-- R89 (1), (2), (3). -/
theorem liqA_response (m : RoundingMode) (p0 p1 : Native) (amount : Amount) :
    (liqA m p0 p1 amount).response placeLiquidity = liqAResponse m p0 p1 amount := by
  unfold liqAResponse
  split_ifs with hover heq
  · rw [liqA_overflow hover, Run.response_mk_error]
  · rw [liqA_division (Nat.not_le.1 hover), Run.response_mk_outcome]
    refine rdiv_response_of_zero (w := .w128) _ ?_
    rw [toNat_liqA_denominator, (gap_eq_zero p0 p1).2 heq, Nat.zero_mul]
  · have hd : (productBits (gapBits p0 p1) Config.scaleFactor).toNat ≠ 0 := by
      rw [toNat_liqA_denominator]
      exact (Nat.mul_pos (gap_pos heq) (Nat.two_pow_pos 64)).ne'
    rw [liqA_division (Nat.not_le.1 hover), Run.response_mk_outcome, rdiv_response (w := .w128) _ toNat_placeLiquidity hd,
      toNat_liqA_numerator (Nat.not_le.1 hover), toNat_liqA_denominator]

/-- R93: the quotient is at most its numerator, which `B_SHIFT` = 64 keeps in 128 bits (log entry 8). -/
theorem liqB_quotient_lt (m : RoundingMode) {p0 p1 : Native} (amount : Amount) (h : p0 ≠ p1) :
    rounded m (amount.toNat * 2 ^ Config.bShift) (gap p0 p1) < 2 ^ 128 := by
  have hnum : amount.toNat * 2 ^ Config.bShift < 2 ^ 128 := by
    have := amount.isLt
    unfold Config.bShift
    omega
  exact (rounded_le_numerator m _ (gap_pos h)).trans_lt hnum

theorem liqB_response (m : RoundingMode) (p0 p1 : Native) (amount : Amount) :
    (liqB m p0 p1 amount).response placeLiquidity = liqBResponse m p0 p1 amount := by
  rw [liqB_division, Run.response_mk_outcome]
  unfold liqBResponse
  split_ifs with heq
  · refine rdiv_response_of_zero (w := .w128) _ ?_
    rw [toNat_liqB_denominator, (gap_eq_zero p0 p1).2 heq]
  · have hd : (zext256 (gapBits p0 p1)).toNat ≠ 0 := by
      rw [toNat_liqB_denominator]
      exact (gap_pos heq).ne'
    rw [rdiv_response (w := .w128) _ toNat_placeLiquidity hd, toNat_liqB_numerator, toNat_liqB_denominator]
    exact if_pos (liqB_quotient_lt m amount heq)

/-- Settles O35: the short-cut, the shifter's limit, and the division with its zero denominator. -/
theorem deltaAAnswersItsClosedForm : Obligations.DeltaAAnswersItsClosedForm := by
  intro m p0 p1 liq s
  rw [← deltaA_response]
  exact answers_of_exec_eq_answer (exec_deltaA m p0 p1 liq s)

/-- Settles O36: one division by a power of two. -/
theorem deltaBAnswersItsClosedForm : Obligations.DeltaBAnswersItsClosedForm := by
  intro m p0 p1 liq s
  rw [← deltaB_response]
  exact answers_of_exec_eq_answer (exec_deltaB m p0 p1 liq s)

/-- Settles O37: the wide product, then the division with its zero denominator. -/
theorem liqAAnswersItsClosedForm : Obligations.LiqAAnswersItsClosedForm := by
  intro m p0 p1 amount s
  rw [← liqA_response]
  exact answers_of_exec_eq_answer (exec_liqA m p0 p1 amount s)

/-- Settles O38: the division with its zero denominator, whose quotient always fits. -/
theorem liqBAnswersItsClosedForm : Obligations.LiqBAnswersItsClosedForm := by
  intro m p0 p1 amount s
  rw [← liqB_response]
  exact ⟨answers_of_exec_eq_answer (exec_liqB m p0 p1 amount s), liqB_quotient_lt m amount⟩

/-- Settles O39: the short-cut's run has the value 0 and issues the difference alone. -/
theorem zeroShortCutComesFirst : Obligations.ZeroShortCutComesFirst :=
  fun _ _ _ _ s h => ⟨_, exec_deltaA_shortCut h s⟩

section
variable (m : RoundingMode) (p0 p1 liq : Native) (amount : Amount) (s : State)

theorem responseOf_deltaA : responseOf (exec (.deltaA m p0 p1 liq) s) = some (deltaAResponse m p0 p1 liq) :=
  responseOf_of_answers (deltaAAnswersItsClosedForm m p0 p1 liq s)

theorem responseOf_deltaB : responseOf (exec (.deltaB m p0 p1 liq) s) = some (deltaBResponse m p0 p1 liq) :=
  responseOf_of_answers (deltaBAnswersItsClosedForm m p0 p1 liq s)

theorem responseOf_liqA : responseOf (exec (.liqA m p0 p1 amount) s) = some (liqAResponse m p0 p1 amount) :=
  responseOf_of_answers (liqAAnswersItsClosedForm m p0 p1 amount s)

theorem responseOf_liqB : responseOf (exec (.liqB m p0 p1 amount) s) = some (liqBResponse m p0 p1 amount) :=
  responseOf_of_answers (liqBAnswersItsClosedForm m p0 p1 amount s).1

end

section
variable {m : RoundingMode} {p0 p1 liq : Native} {amount : Amount} {r : Response}

/-! A response that the closed form evaluates to is the answer from every state. -/

theorem answers_deltaA (h : deltaAResponse m p0 p1 liq = r) (s : State) : Answers (.deltaA m p0 p1 liq) s r :=
  h ▸ deltaAAnswersItsClosedForm m p0 p1 liq s

theorem answers_deltaB (h : deltaBResponse m p0 p1 liq = r) (s : State) : Answers (.deltaB m p0 p1 liq) s r :=
  h ▸ deltaBAnswersItsClosedForm m p0 p1 liq s

theorem answers_liqA (h : liqAResponse m p0 p1 amount = r) (s : State) : Answers (.liqA m p0 p1 amount) s r :=
  h ▸ liqAAnswersItsClosedForm m p0 p1 amount s

theorem answers_liqB (h : liqBResponse m p0 p1 amount = r) (s : State) : Answers (.liqB m p0 p1 amount) s r :=
  h ▸ (liqBAnswersItsClosedForm m p0 p1 amount s).1

end

/-! When a conversion has a value, and the value as a number. -/

/-- The exact quotient of `DELTA_A`, rounded (R83). -/
def deltaAQuotient (m : RoundingMode) (p0 p1 liq : Native) : Nat :=
  rounded m (liq.toNat * gap p0 p1 * 2 ^ 64) (p0.toNat * p1.toNat)

/-- The negations of R83's three failures. -/
structure DeltaAConverts (m : RoundingMode) (p0 p1 liq : Native) : Prop where
  /-- The division is not reached, or has a denominator. -/
  divides : (p0 = p1 ∨ liq = 0) ∨ (p0 ≠ 0 ∧ p1 ≠ 0)
  scales : liq.toNat * gap p0 p1 < 2 ^ 192
  fits : deltaAQuotient m p0 p1 liq < 2 ^ 64

theorem mul_gap_eq_zero {p0 p1 liq : Native} (h : p0 = p1 ∨ liq = 0) : liq.toNat * gap p0 p1 = 0 := by
  obtain heq | rfl := h
  · rw [(gap_eq_zero p0 p1).2 heq, Nat.mul_zero]
  · exact Nat.zero_mul _

/-- The short-cut's 0 is the quotient too, so one formula covers both ways to a value. -/
theorem responseOf_deltaA_eq_ok_iff {m : RoundingMode} {p0 p1 liq v : Native} {s : State} :
    responseOf (exec (.deltaA m p0 p1 liq) s) = some (.ok v) ↔
      DeltaAConverts m p0 p1 liq ∧ v.toNat = deltaAQuotient m p0 p1 liq := by
  rw [responseOf_deltaA, Option.some.injEq, deltaAResponse]
  split_ifs with hcut hscale hzero
  · have hprod := mul_gap_eq_zero hcut
    have hquot : deltaAQuotient m p0 p1 liq = 0 := by
      rw [deltaAQuotient, hprod, Nat.zero_mul, rounded_zero]
    have hconv : DeltaAConverts m p0 p1 liq := ⟨.inl hcut, by omega, by omega⟩
    rw [Response.ok.injEq, and_iff_right hconv, hquot, eq_comm]
    exact BitVec.toNat_inj.symm
  · exact iff_of_false nofun fun h => hscale.not_gt h.1.scales
  · exact iff_of_false nofun fun h => h.1.divides.elim hcut fun hne => hzero.elim hne.1 hne.2
  · have hdiv := not_or.1 hzero
    rw [fitting_eq_ok_iff (by decide), ← deltaAQuotient]
    exact and_congr_left' ⟨fun hfit => ⟨.inr hdiv, Nat.not_le.1 hscale, hfit⟩, fun h => h.fits⟩

theorem DeltaAConverts.exists_ok {m : RoundingMode} {p0 p1 liq : Native} (h : DeltaAConverts m p0 p1 liq) (s : State) :
    ∃ v, responseOf (exec (.deltaA m p0 p1 liq) s) = some (.ok v) ∧ v.toNat = deltaAQuotient m p0 p1 liq := by
  have hv : (BitVec.ofNat 128 (deltaAQuotient m p0 p1 liq)).toNat = deltaAQuotient m p0 p1 liq :=
    Nat.mod_eq_of_lt (h.fits.trans (by decide))
  exact ⟨_, responseOf_deltaA_eq_ok_iff.2 ⟨h, hv⟩, hv⟩

theorem responseOf_deltaB_eq_ok_iff {m : RoundingMode} {p0 p1 liq v : Native} {s : State} :
    responseOf (exec (.deltaB m p0 p1 liq) s) = some (.ok v) ↔
      rounded m (liq.toNat * gap p0 p1) (2 ^ Config.bShift) < 2 ^ 64 ∧
        v.toNat = rounded m (liq.toNat * gap p0 p1) (2 ^ Config.bShift) := by
  rw [responseOf_deltaB, Option.some.injEq, deltaBResponse, fitting_eq_ok_iff (by decide)]

theorem toNat_of_responseOf_liqA_eq_ok {m : RoundingMode} {p0 p1 v : Native} {amount : Amount} {s : State}
    (h : responseOf (exec (.liqA m p0 p1 amount) s) = some (.ok v)) :
    v.toNat = rounded m (p0.toNat * p1.toNat * amount.toNat) (gap p0 p1 * 2 ^ 64) := by
  rw [responseOf_liqA, Option.some.injEq, liqAResponse] at h
  split_ifs at h
  exact ((fitting_eq_ok_iff (by decide)).1 h).2

theorem toNat_of_responseOf_liqB_eq_ok {m : RoundingMode} {p0 p1 v : Native} {amount : Amount} {s : State}
    (h : responseOf (exec (.liqB m p0 p1 amount) s) = some (.ok v)) :
    v.toNat = rounded m (amount.toNat * 2 ^ Config.bShift) (gap p0 p1) := by
  rw [responseOf_liqB, Option.some.injEq, liqBResponse] at h
  split_ifs at h with heq
  cases h
  exact Nat.mod_eq_of_lt (liqB_quotient_lt m amount heq)

/-! The properties of `DELTA_A` (R84). -/

/-- Settles O40: floor and ceiling of one quotient; `2^128` over `2^64 + 1` is `2^64 - 1` and a remainder. -/
theorem floorAtMostCeiling : Obligations.FloorAtMostCeiling := by
  constructor
  · intro p0 p1 liq s u hup
    obtain ⟨⟨hdiv, hscale, hfit⟩, hu⟩ := responseOf_deltaA_eq_ok_iff.1 hup
    have hle : deltaAQuotient .down p0 p1 liq ≤ deltaAQuotient .up p0 p1 liq := rounded_down_le_up _ _
    have hconv : DeltaAConverts .down p0 p1 liq := ⟨hdiv, hscale, hle.trans_lt hfit⟩
    obtain ⟨d, hdown, hd⟩ := hconv.exists_ok s
    refine ⟨d, hdown, ?_, ?_⟩
    · rwa [hd, hu]
    · rw [hd, hu]
      exact rounded_up_le_down_add_one _ _
  · exact ⟨1, 18446744073709551617, 1, fun s => ⟨answers_deltaA (by decide) s, answers_deltaA (by decide) s⟩⟩

theorem deltaAQuotient_mono (m : RoundingMode) (p0 p1 : Native) {liq liq' : Native} (h : liq.toNat ≤ liq'.toNat) :
    deltaAQuotient m p0 p1 liq ≤ deltaAQuotient m p0 p1 liq' :=
  rounded_mono m _ (Nat.mul_le_mul_right _ (Nat.mul_le_mul_right _ h))

/-- Less liquidity meets no failure that more liquidity does not meet. -/
theorem DeltaAConverts.of_le {m : RoundingMode} {p0 p1 liq liq' : Native} (h : DeltaAConverts m p0 p1 liq')
    (hle : liq.toNat ≤ liq'.toNat) : DeltaAConverts m p0 p1 liq where
  divides := by
    refine h.divides.imp_left (Or.imp_right ?_)
    rintro rfl
    exact BitVec.eq_of_toNat_eq (Nat.eq_zero_of_le_zero hle)
  scales := (Nat.mul_le_mul_right _ hle).trans_lt h.scales
  fits := (deltaAQuotient_mono m p0 p1 hle).trans_lt h.fits

/-- Settles O41: the failures' conditions and the quotient grow with the liquidity. -/
theorem deltaAGrowsWithLiquidity : Obligations.DeltaAGrowsWithLiquidity := by
  intro m p0 p1 liq liq' s v' hle h
  obtain ⟨hconv', hv'⟩ := responseOf_deltaA_eq_ok_iff.1 h
  obtain ⟨v, hok, hv⟩ := (hconv'.of_le hle).exists_ok s
  refine ⟨v, hok, ?_⟩
  rw [hv, hv']
  exact deltaAQuotient_mono m p0 p1 hle

/-! Swapping the prices (R94). -/

section
variable (m : RoundingMode) (p0 p1 liq : Native) (amount : Amount)

theorem deltaAResponse_comm : deltaAResponse m p0 p1 liq = deltaAResponse m p1 p0 liq := by
  simp only [deltaAResponse, gap_comm p1 p0, Nat.mul_comm p1.toNat, eq_comm (a := p1) (b := p0), or_comm (a := p1 = 0)]

theorem deltaBResponse_comm : deltaBResponse m p0 p1 liq = deltaBResponse m p1 p0 liq := by
  simp only [deltaBResponse, gap_comm p1 p0]

theorem liqAResponse_comm : liqAResponse m p0 p1 amount = liqAResponse m p1 p0 amount := by
  simp only [liqAResponse, gap_comm p1 p0, Nat.mul_comm p1.toNat, eq_comm (a := p1) (b := p0)]

theorem liqBResponse_comm : liqBResponse m p0 p1 amount = liqBResponse m p1 p0 amount := by
  simp only [liqBResponse, gap_comm p1 p0, eq_comm (a := p1) (b := p0)]

end

/-- Settles O42: the closed forms see the prices through their gap, their product and their equality. -/
theorem pricesAreSymmetric : Obligations.PricesAreSymmetric := by
  intro m p0 p1 liq amount s
  refine ⟨?_, ?_, ?_, ?_⟩
  · rw [responseOf_deltaA, responseOf_deltaA, deltaAResponse_comm]
  · rw [responseOf_deltaB, responseOf_deltaB, deltaBResponse_comm]
  · rw [responseOf_liqA, responseOf_liqA, liqAResponse_comm]
  · rw [responseOf_liqB, responseOf_liqB, liqBResponse_comm]

/-! The round trips (R91, R93): `L` is scaled by `g / d` and the rounded result by `d / g` back again. On the A side `d` is the
product of the prices and `g` their gap times `2^64`; on the B side `d` is `2^B_SHIFT` and `g` the gap. -/

section
variable (L : Nat) {g d : Nat} (hg : 0 < g) (hd : 0 < d)
include hg hd

/-- Up, then down: not less, and by less than `d / g` more. -/
theorem roundTrip_up_down : L ≤ rounded .down (d * rounded .up (L * g) d) g ∧
    (rounded .down (d * rounded .up (L * g) d) g - L) * g < d := by
  have hcover := le_mul_rounded_up (L * g) hd
  have hclose := mul_rounded_up_lt (L * g) hd
  have hback : rounded .down (d * rounded .up (L * g) d) g * g ≤ d * rounded .up (L * g) d := Nat.div_mul_le_self _ _
  refine ⟨(Nat.le_div_iff_mul_le hg).2 hcover, ?_⟩
  rw [Nat.sub_mul]
  omega

/-- Down, then up: not more, and by less than `d / g` less. -/
theorem roundTrip_down_up : rounded .up (d * rounded .down (L * g) d) g ≤ L ∧
    (L - rounded .up (d * rounded .down (L * g) d) g) * g < d := by
  have hbelow : d * rounded .down (L * g) d ≤ L * g := Nat.mul_div_le _ _
  have hclose := lt_mul_rounded_down_add (L * g) hd
  have hback : d * rounded .down (L * g) d ≤ rounded .up (d * rounded .down (L * g) d) g * g :=
    (le_mul_rounded_up _ hg).trans_eq (Nat.mul_comm _ _)
  constructor
  · rw [← roundedQuotient_eq_rounded _ .up hg, roundedQuotient_up_le_iff hg, Nat.mul_comm g]
    exact hbelow
  · rw [Nat.sub_mul]
    omega

end

/-- An amount comes through the 64-bit operand port unchanged. -/
theorem toNat_setWidth_of_lt {v : Native} (h : v.toNat < 2 ^ 64) : (v.setWidth 64).toNat = v.toNat := by
  rw [BitVec.toNat_setWidth]
  exact Nat.mod_eq_of_lt h

section
variable {mThere mBack : RoundingMode} {p0 p1 liq a l : Native} {s : State}

/-- Through an amount of token A, both rounded quotients as one formula. -/
theorem toNat_roundTripA (hthere : responseOf (exec (.deltaA mThere p0 p1 liq) s) = some (.ok a))
    (hback : responseOf (exec (.liqA mBack p0 p1 (a.setWidth 64)) s) = some (.ok l)) :
    l.toNat = rounded mBack
      (p0.toNat * p1.toNat * rounded mThere (liq.toNat * (gap p0 p1 * 2 ^ 64)) (p0.toNat * p1.toNat))
      (gap p0 p1 * 2 ^ 64) := by
  obtain ⟨hconv, ha⟩ := responseOf_deltaA_eq_ok_iff.1 hthere
  have hfit : a.toNat < 2 ^ 64 := ha.trans_lt hconv.fits
  rw [toNat_of_responseOf_liqA_eq_ok hback, toNat_setWidth_of_lt hfit, ha, deltaAQuotient, Nat.mul_assoc liq.toNat]

/-- Through an amount of token B likewise. -/
theorem toNat_roundTripB (hthere : responseOf (exec (.deltaB mThere p0 p1 liq) s) = some (.ok a))
    (hback : responseOf (exec (.liqB mBack p0 p1 (a.setWidth 64)) s) = some (.ok l)) :
    l.toNat = rounded mBack
      (2 ^ Config.bShift * rounded mThere (liq.toNat * gap p0 p1) (2 ^ Config.bShift)) (gap p0 p1) := by
  obtain ⟨hfits, ha⟩ := responseOf_deltaB_eq_ok_iff.1 hthere
  have hfit : a.toNat < 2 ^ 64 := ha.trans_lt hfits
  rw [toNat_of_responseOf_liqB_eq_ok hback, toNat_setWidth_of_lt hfit, ha, Nat.mul_comm (2 ^ Config.bShift)]

end

/-- Settles O43: the round trip of numbers, with the product of the prices and their scaled gap. -/
theorem roundTripThroughAmountA : Obligations.RoundTripThroughAmountA := by
  intro p0 p1 liq s a l hne h0 h1
  have hg : 0 < gap p0 p1 * 2 ^ 64 := Nat.mul_pos (gap_pos hne) (Nat.two_pow_pos 64)
  have hd : 0 < p0.toNat * p1.toNat :=
    Nat.pos_of_ne_zero (mt (prices_mul_eq_zero_iff p0 p1).1 (not_or.2 ⟨h0, h1⟩))
  refine ⟨fun hthere hback => ?_, fun hthere hback => ?_⟩
  · rw [toNat_roundTripA hthere hback]
    exact roundTrip_up_down liq.toNat hg hd
  · rw [toNat_roundTripA hthere hback]
    exact roundTrip_down_up liq.toNat hg hd

/-- Settles O44: the round trip of numbers, with the one `2^B_SHIFT` of both commands. -/
theorem roundTripThroughAmountB : Obligations.RoundTripThroughAmountB := by
  intro p0 p1 liq s a l hne
  have hg := gap_pos hne
  have hd := Nat.two_pow_pos Config.bShift
  refine ⟨fun hthere hback => ?_, fun hthere hback => ?_⟩
  · rw [toNat_roundTripB hthere hback]
    exact (roundTrip_up_down liq.toNat hg hd).1
  · rw [toNat_roundTripB hthere hback]
    exact (roundTrip_down_up liq.toNat hg hd).1

/-! The failures of each command (R97). -/

section
variable {m : RoundingMode} {p0 p1 liq : Native} {amount : Amount} {f : Failure}

theorem failure_of_deltaAResponse_eq_err (h : deltaAResponse m p0 p1 liq = .err f) :
    f = .scaleOverflow ∨ f = .resultOverflow ∨ f = .divisionByZero := by
  unfold deltaAResponse at h
  split_ifs at h with hcut hscale hzero
  · cases h
    exact .inl rfl
  · cases h
    exact .inr (.inr rfl)
  · exact .inr (.inl (eq_resultOverflow_of_fitting_eq_err h))

theorem failure_of_liqAResponse_eq_err (h : liqAResponse m p0 p1 amount = .err f) :
    f = .resultOverflow ∨ f = .divisionByZero ∨ f = .overflow := by
  unfold liqAResponse at h
  split_ifs at h with hover heq
  · cases h
    exact .inr (.inr rfl)
  · cases h
    exact .inr (.inl rfl)
  · exact .inl (eq_resultOverflow_of_fitting_eq_err h)

theorem failure_of_liqBResponse_eq_err (h : liqBResponse m p0 p1 amount = .err f) : f = .divisionByZero := by
  unfold liqBResponse at h
  split_ifs at h
  cases h
  rfl

end

/-- Each failure of `DELTA_A`'s row on operands that give it: the largest product, a quotient of `2^64`, a zero price. -/
theorem deltaA_reaches_its_failures (f : Failure) (h : f = .scaleOverflow ∨ f = .resultOverflow ∨ f = .divisionByZero) :
    ∃ m p0 p1 liq, ∀ s, Answers (.deltaA m p0 p1 liq) s (.err f) := by
  obtain rfl | rfl | rfl := h
  · exact ⟨.down, 0, -1, -1, answers_deltaA (by decide)⟩
  · exact ⟨.up, 1, 2, 2, answers_deltaA (by decide)⟩
  · exact ⟨.down, 0, 1, 1, answers_deltaA (by decide)⟩

/-- Each failure of `LIQ_A`'s row: the two largest prices at a gap of 1, equal prices, the largest operands. -/
theorem liqA_reaches_its_failures (f : Failure) (h : f = .resultOverflow ∨ f = .divisionByZero ∨ f = .overflow) :
    ∃ m p0 p1 amount, ∀ s, Answers (.liqA m p0 p1 amount) s (.err f) := by
  obtain rfl | rfl | rfl := h
  · exact ⟨.down, -1, -2, 1, answers_liqA (by decide)⟩
  · exact ⟨.down, 5, 5, 0, answers_liqA (by decide)⟩
  · exact ⟨.down, -1, -1, -1, answers_liqA (by decide)⟩

/-- Settles O45: the branches of the closed forms, each with operands that take it. -/
theorem commandsFailAsTheTableSays : Obligations.CommandsFailAsTheTableSays := by
  refine ⟨?_, ?_, ?_, ?_, deltaA_reaches_its_failures, ?_, liqA_reaches_its_failures, ?_, ?_, ?_, ?_, ?_⟩
  · intro m p0 p1 liq s f h
    rw [responseOf_deltaA, Option.some.injEq] at h
    exact failure_of_deltaAResponse_eq_err h
  · intro m p0 p1 liq s f h
    rw [responseOf_deltaB, Option.some.injEq] at h
    exact eq_resultOverflow_of_fitting_eq_err h
  · intro m p0 p1 amount s f h
    rw [responseOf_liqA, Option.some.injEq] at h
    exact failure_of_liqAResponse_eq_err h
  · intro m p0 p1 amount s f h
    rw [responseOf_liqB, Option.some.injEq] at h
    exact failure_of_liqBResponse_eq_err h
  · exact ⟨.down, 0, 18446744073709551616, 18446744073709551616, answers_deltaB (by decide)⟩
  · exact ⟨.down, 5, 5, 0, answers_liqB (by decide)⟩
  · exact ⟨.up, 1, 3, 1, 12297829382473034411, answers_deltaA (by decide)⟩
  · exact ⟨.down, 0, 1, 18446744073709551616, 1, answers_deltaB (by decide)⟩
  · exact ⟨.down, 18446744073709551616, 36893488147419103232, 3, 6, answers_liqA (by decide)⟩
  · exact ⟨.down, 0, 1, 1, 18446744073709551616, answers_liqB (by decide)⟩

/-! Where an amount stands (R95). -/

theorem upperHalf_eq_zero_of_lt {v : Native} (h : v.toNat < 2 ^ 64) : v.extractLsb' 64 64 = 0 := by
  apply BitVec.eq_of_toNat_eq
  rw [BitVec.extractLsb'_toNat, Nat.shiftRight_eq_div_pow, Nat.div_eq_of_lt h]
  rfl

/-- Settles O48: an amount that was narrowed to 64 bits is below `2^64`. -/
theorem amountsStandInTheLowHalf : Obligations.AmountsStandInTheLowHalf := by
  intro m p0 p1 liq s v
  refine ⟨fun h => upperHalf_eq_zero_of_lt ?_, fun h => upperHalf_eq_zero_of_lt ?_⟩
  · obtain ⟨hconv, hv⟩ := responseOf_deltaA_eq_ok_iff.1 h
    exact hv.trans_lt hconv.fits
  · obtain ⟨hfits, hv⟩ := responseOf_deltaB_eq_ok_iff.1 h
    exact hv.trans_lt hfits

end Sys2Proof.Machine
end

section
/-! PROOFS. Exceptions (60_exceptions.md): a failing call stops at the micro-operation that raises its failure (R101, R104, R106),
so none is `Underflow` (R103); nothing of a call reaches the next one (R107); who rejects a zero price (R110); and what one step
does (R105, R111). -/

namespace Sys2Proof

/-- The unit field of a label as a number. -/
theorem toNat_unit (u : BitVec 6) : (u.extractLsb' 0 4).toNat = u.toNat % 16 := by
  rw [BitVec.extractLsb'_toNat, Nat.shiftRight_zero]

/-- R41: ten units and no more. -/
theorem decodeLabel_of_ten_le {u : BitVec 6} (h : 10 ≤ u.toNat % 16) :
    decodeLabel u = .error (.noUnit (u.extractLsb' 0 4)) := by
  rw [← toNat_unit] at h
  unfold decodeLabel
  split
  case h_11 => rfl
  all_goals omega

end Sys2Proof

namespace Sys2Proof.Machine

open Sys2Proof.Safety

/-! What ends a failing call (R101, R103, R104, R106). -/

/-- Settles O49: a command's run is accountable, so the state it leaves meets the invariant, whose last clause this is. -/
theorem failureIsRaisedByTheLastMicroOperation : Obligations.FailureIsRaisedByTheLastMicroOperation := by
  intro i s t f hi hexec hf
  obtain ⟨r, hanswer, hr, hne⟩ := exec_eq_answer_accountable hi
  have hinv : RunInv t := runInv_of_answer hr hne ((hanswer s).symm.trans hexec)
  exact hinv.failureWasRaised f hf

/-- R103: no micro-operation that a command issues ends it with `Underflow`. -/
theorem not_raises_underflow (c : UnitCall) : ¬ Raises c .underflow := by
  cases c <;> exact id

/-- Settles O46: the last micro-operation of the call would have raised the failure. -/
theorem noCallReturnsUnderflow : Obligations.NoCallReturnsUnderflow := by
  intro s c h
  have hi := isCommand_decodeCommand c
  obtain ⟨resp, issued, hexec⟩ := exec_command hi (s.present c).accept
  rw [step_present, hexec, responseOf] at h
  obtain ⟨u, -, hraise⟩ := failureIsRaisedByTheLastMicroOperation _ _ _ _ hi hexec h
  exact not_raises_underflow u hraise

/-! After a call (R107). -/

/-- Settles O6: a call writes the ports, the request, the response and the log only, and the next call writes all four again,
with a response and a log that do not depend on the state. -/
theorem nextCallForgetsTheLast : Obligations.NextCallForgetsTheLast := by
  intro s c c' t h
  obtain ⟨resp, issued, hfirst⟩ := step_present_from_every_state c
  obtain ⟨resp', issued', hnext⟩ := step_present_from_every_state c'
  rw [hfirst] at h
  cases h
  rw [hnext, hnext]
  rfl

/-! Zero prices (R110), on the closed forms; the two orders of the prices have one response (R94). -/

section
variable {m : RoundingMode} {p liq : Native} {amount : Amount}

/-- The product is not too large for the shifter, so the division by 0 is reached (R83). -/
theorem deltaAResponse_zero_left (hp : p ≠ 0) (hliq : liq ≠ 0) (hprod : liq.toNat * p.toNat < 2 ^ 192) :
    deltaAResponse m 0 p liq = .err .divisionByZero := by
  have hgap : gap 0 p = p.toNat := by simp [gap]
  have hcut : ¬ (0 = p ∨ liq = 0) := not_or.2 ⟨hp.symm, hliq⟩
  rw [deltaAResponse, if_neg hcut, hgap, if_neg (Nat.not_le.2 hprod), if_pos (.inl rfl)]

/-- The numerator is 0 and the denominator, the gap, is not (R89). -/
theorem liqAResponse_zero_left (hp : p ≠ 0) : liqAResponse m 0 p amount = .ok 0 := by
  have hnum : (0 : Native).toNat * p.toNat * amount.toNat = 0 := by simp
  rw [liqAResponse, hnum, if_neg (by decide), if_neg hp.symm, rounded_zero]
  rfl

end

/-- R97: `DELTA_B` fails with `ResultOverflow` only. -/
theorem deltaB_ne_divisionByZero (m : RoundingMode) (p0 p1 liq : Native) (s : State) :
    responseOf (exec (.deltaB m p0 p1 liq) s) ≠ some (.err .divisionByZero) := by
  intro h
  obtain ⟨-, hdeltaB, -⟩ := commandsFailAsTheTableSays
  cases hdeltaB m p0 p1 liq s _ h

/-- R93: different prices are all that `LIQ_B` asks for. -/
theorem exists_liqBResponse_eq_ok (m : RoundingMode) {p0 p1 : Native} (amount : Amount) (h : p0 ≠ p1) :
    ∃ v, liqBResponse m p0 p1 amount = .ok v :=
  ⟨_, if_neg h⟩

/-- Settles O47: `DELTA_A` divides by the product of the prices, the other three commands do not. -/
theorem zeroPricesAreRejectedOnlyAtADivision : Obligations.ZeroPricesAreRejectedOnlyAtADivision := by
  refine ⟨?_, ?_, ?_, ?_, ?_⟩
  · intro m p liq s hp hliq hprod
    have h : deltaAResponse m 0 p liq = .err .divisionByZero := deltaAResponse_zero_left hp hliq hprod
    exact ⟨answers_deltaA h s, answers_deltaA ((deltaAResponse_comm m p 0 liq).trans h) s⟩
  · intro m p s
    exact ⟨zeroShortCutComesFirst m 0 p 0 s (.inr rfl), zeroShortCutComesFirst m p 0 0 s (.inr rfl)⟩
  · intro m p liq s
    exact ⟨deltaB_ne_divisionByZero m 0 p liq s, deltaB_ne_divisionByZero m p 0 liq s⟩
  · intro m p amount s hp
    have h : liqAResponse m 0 p amount = .ok 0 := liqAResponse_zero_left hp
    exact ⟨answers_liqA h s, answers_liqA ((liqAResponse_comm m p 0 amount).trans h) s⟩
  · intro m p amount s hp
    obtain ⟨v, h⟩ := exists_liqBResponse_eq_ok m amount hp.symm
    exact ⟨v, answers_liqB h s, answers_liqB ((liqBResponse_comm m p 0 amount).trans h) s⟩

/-! One step (R105, R111). -/

theorem step_of_noUnit {s : State} {u : BitVec 6} {k : BitVec 4} (h : s.request = some (.label u))
    (hd : decodeLabel u = .error (.noUnit k)) : step s = .refused (.noSuchUnit k) := by
  simp only [step, presented_of_label h, hd]

/-- Settles O2: the three things that can be presented, and a label with no unit. -/
theorem stepRunsThePresentedInstruction : Obligations.StepRunsThePresentedInstruction :=
  ⟨fun _ => step_of_idle, fun _ => step_of_command, fun _ _ _ => step_of_label,
    fun _ _ h hunit => step_of_noUnit h (decodeLabel_of_ten_le hunit)⟩

end Sys2Proof.Machine
end

section
/-! PROOFS. Reset and hazards (70_reset_and_hazards.md): a presented record is answered once (R123, R131; R34, R113). -/

namespace Sys2Proof.Machine

open Sys2Proof.Safety

/-- Settles O4: the call's one step took the request away, so the state it leaves is idle. -/
theorem everyPresentedCommandIsAnsweredOnce : Obligations.EveryPresentedCommandIsAnsweredOnce := by
  intro s c
  obtain ⟨resp, issued, hstep⟩ := step_present_from_every_state c
  have hidle : (s.present c).accept.request = none := accept_request _
  exact ⟨_, resp, hstep s, rfl, rfl, hidle, step_of_idle hidle⟩

end Sys2Proof.Machine
end
